-- ==== Sys2Proof/Word.lean ====
section
/-!
DEFINITION. The value types of the block (00_scope.md R7 to R9, 30_encoding.md R70): bytes and texts.
Integers of a Command are Lean's `Int` (D5: the model uses unbounded integers; log 11).
-/
namespace Sys2Proof

/-- A byte, an integer in 0..255 with bits 7 down to 0 (R7). -/
abbrev Byte := BitVec 8

/-- A text, a sequence of characters (R8; log 19). -/
abbrev Text := List Char

/-- A Command as presented at the request port: integers, not yet range checked (R21, R70). -/
abbrev Command := List Int

end Sys2Proof
end

