-- ==== Sys2Proof/Syntax.lean ====
section
/-!
DEFINITION. The operations of spec/opcode_table.json, one constructor per row, and the forms in which they
are presented (00_scope.md R3, 30_encoding.md R71, R81, R83; log 2, log 3).
-/
namespace Sys2Proof

/-- The classes of a text message (44_command_relay.md R181). -/
inductive MsgKind where
  | exit | motion | height | raw | fallback
  deriving DecidableEq, Repr, Inhabited

/-- The transport sink's answer to a hand-over (43_motion_controller.md R161). -/
inductive SinkAnswer where
  | ok | fail
  deriving DecidableEq, Repr, Inhabited

/-- What is emitted after a full block that ends the input (R6, D8). -/
inductive TrailingPolicy where
  | omitBlock | emitBlock
  deriving DecidableEq, Repr, Inhabited

/-- The operations, in the order of spec/opcode_table.json. Operands are integers of any size: an operand out of
its range is answered with `RangeError`, it is not outside the syntax (R236). -/
inductive Instr where
  /-- MOTION, format M4 (R71, R164). -/
  | motion (fwd strafe turn : Int)
  /-- HEIGHT, format H4 (R71, R166). -/
  | height (height : Int)
  /-- STOP, `[6,0,0,0]` (R143, R167). -/
  | stop
  /-- TURN, `[6,0,0,80]` (R144, R168). -/
  | turn
  /-- INIT0, `[16]`, step 0 of INIT (R146, R170). -/
  | init0
  /-- INIT1, `[7,1]`, step 1 of INIT (R146, R170). -/
  | init1
  /-- INIT2, `[6,0,0,0]`, step 2 of INIT (R146, R170). -/
  | init2
  /-- INIT, the sequence INIT0, INIT1, INIT2 (R170). -/
  | init
  /-- RAW, the source's sendRaw (R145, R165). -/
  | raw (description : Text) (ints : Command)
  /-- EXECUTE, the send primitive (R160). -/
  | execute (cmd : Command) (description : Text)
  /-- ENCODE, the frame codec alone (R110). -/
  | encode (cmd : Command)
  /-- CHECKSUM of a byte sequence (R100). -/
  | checksum (bytes : List Byte)
  /-- RESET with its configuration (R230). -/
  | reset (defaultHeight : Int) (delay : Nat)
  /-- CLASSIFY of a text (R181). -/
  | classify (msg : Text)
  /-- EXIT message (R182). -/
  | exit
  /-- MOTION message (R183). -/
  | motionMessage (msg : Text)
  /-- HEIGHT message (R184). -/
  | heightMessage (msg : Text)
  /-- RAW message (R185). -/
  | rawMessage (msg : Text)
  /-- FALLBACK, for a message with none of the keywords (R186). -/
  | fallback
  deriving DecidableEq, Repr

/-- One thing that reaches the machine from outside (R236; log 2). -/
inductive Request where
  /-- An operation with its operands at the abstract request port (D3); "(direct)" in 95_test_vectors.md. -/
  | direct (i : Instr)
  /-- A packed Command, element 0 first (R71, R83; log 3). -/
  | word (bytes : List Byte)
  /-- `RECEIVE` returned this message to the relay (R180). -/
  | text (msg : Text)
  /-- `RECEIVE` raised `TransportError` (R180, R188). -/
  | receiveFails
  deriving DecidableEq, Repr

/-- Why a request is no operation. -/
inductive DecodeError where
  /-- A message operation whose text is of another class (R180, R181). -/
  | notOfItsKind
  /-- A failed `RECEIVE` carries no message; `step` handles it (R188). -/
  | noMessage
  deriving DecidableEq, Repr

end Sys2Proof
end

