-- ==== Sys2Proof/Config.lean ====
section
/-!
DEFINITION. The parameters of 00_scope.md R6 that have a value, the parameters left open that State.reset needs
(log 6, log 7), and the free values (log 4, log 5).
-/
namespace Sys2Proof.Config

/-- Bounds of a command element (R6). -/
def elemMin : Int := -128
def elemMax : Int := 127

/-- Bounds of a height (R6). -/
def heightMin : Int := 1
def heightMax : Int := 127

/-- Opcodes of a motion and of a height command (R6; unaudited literals, K6). -/
def opMotion : Int := 6
def opHeight : Int := 4

/-- Second and third element of a height command (R6). -/
def heightK1 : Int := 0
def heightK2 : Int := 7

/-- Turn operand of the canned turn command (R6). -/
def turnValue : Int := 80

/-- Last byte of a frame (R6). -/
def terminator : Byte := 0x00#8

/-- Data bytes in a block whose code is 0xff (R6, K1; log 10). -/
abbrev cobsFullRun : Nat := 254

/-- DESIGN CHOICE of the spec (D8; log 10), unsafe for frames of 254 elements or more. -/
def cobsTrailingPolicy : TrailingPolicy := .omitBlock

/-- DESIGN CHOICE (log 6), unsafe: the default height State.reset is configured with. The spec leaves it open. -/
def defaultHeight : Int := 1

/-- DESIGN CHOICE (log 7), unsafe: the delay State.reset is configured with. The spec leaves it open. -/
def delay : Nat := 0

/-- DESIGN CHOICE (log 8): State.reset has no capacity bound (R6: "the model may take lists of any length"). -/
def maxLen : Option Nat := none

/-- FREE VALUE (log 4), safe: the sink's answer to hand-over number `n` when State holds no answer for it
(R161, U6, D19). -/
opaque sinkAnswer : Nat → SinkAnswer

/-- FREE VALUE (log 5), safe: whether `PARSE_INT` accepts a numeral with leading zeros (R187, N14). -/
opaque acceptsLeadingZeros : Text → Bool

/-- FREE VALUE (log 5), safe: `PARSE_INT` on a text that is no numeral of the form R187 fixes, has a digit and
has no letter (R187, U11, D17). -/
opaque parseIntOther : Text → Option Int

end Sys2Proof.Config
end

