-- ==== Sys2Proof/Machine/Bits.lean ====
section
/-!
DEFINITION. Bytes and integers: packing a SignedByte (30_encoding.md R73), its inverse (00_scope.md R9), nibbles and
hexadecimal digits (30_encoding.md R77), and the byte order of a packed word (R71, R83).
-/
namespace Sys2Proof

/-- A SignedByte is an integer in -128..127 (R7, R70). -/
def isSignedByte (v : Int) : Bool := decide (Config.elemMin ≤ v ∧ v ≤ Config.elemMax)

/-- A height is an integer in 1..127 (R72). -/
def isHeight (v : Int) : Bool := decide (Config.heightMin ≤ v ∧ v ≤ Config.heightMax)

/-- `pack8(v) = v mod 256`, used on SignedBytes only (R73, R113). -/
def pack8 (v : Int) : Byte := BitVec.ofNat 8 (v % 256).toNat

/-- `sext_8` (R9, R73). -/
def sext8 (b : Byte) : Int := if b.toNat < 128 then (b.toNat : Int) else (b.toNat : Int) - 256

/-- `b[7:4]` (R7). -/
def highNibble (b : Byte) : Nat := b.toNat / 16

/-- `b[3:0]` (R7). -/
def lowNibble (b : Byte) : Nat := b.toNat % 16

/-- The sixteen characters of the hex text (R8, R77; log 19). -/
def hexChars : Text :=
  ['0', '1', '2', '3', '4', '5', '6', '7', '8', '9', 'a', 'b', 'c', 'd', 'e', 'f']

/-- `hexdigit` (R77). -/
def hexDigit (n : Nat) : Char := hexChars.getD n '0'

/-- The value of a hex digit, the inverse of `hexDigit`; `none` for any other character (R61). -/
def hexValue (c : Char) : Option Nat := hexChars.findIdx? (· == c)

/-- The `n` bytes of a packed word, element 0 from the most significant byte (R71, R83; log 3). -/
def bytesOfWord (n w : Nat) : List Byte :=
  (List.range n).map fun k => BitVec.ofNat 8 (w / 256 ^ (n - 1 - k))

end Sys2Proof
end

