-- ==== Sys2Proof/Machine/Text.lean ====
section
/-!
DEFINITION. The text primitives of the front end: CLASSIFY (44_command_relay.md R181), `split` and `PARSE_INT` (R187).
-/
namespace Sys2Proof

/-- `lowercase` on one character: `A`..`Z` to `a`..`z`, every other character alone (R181, K4; log 18). -/
def lowerChar (c : Char) : Char := if 'A' ≤ c ∧ c ≤ 'Z' then Char.ofNat (c.toNat + 32) else c

/-- `lowercase(msg)` (R181). -/
def lowercase (msg : Text) : Text := msg.map lowerChar

/-- `contains(m, k)`: `k` occurs as a contiguous substring anywhere in `m` (R181). -/
def contains (m k : Text) : Bool :=
  k.isPrefixOf m || match m with
    | [] => false
    | _ :: rest => contains rest k

/-- The four keywords (R181). -/
def kwExit : Text := ['e', 'x', 'i', 't']
def kwMotion : Text := ['m', 'o', 't', 'i', 'o', 'n']
def kwHeight : Text := ['h', 'e', 'i', 'g', 'h', 't']
def kwRaw : Text := ['r', 'a', 'w']

/-- CLASSIFY: the first keyword present, in fixed priority order (R181). -/
def classify (msg : Text) : MsgKind :=
  let m := lowercase msg
  if contains m kwExit then .exit
  else if contains m kwMotion then .motion
  else if contains m kwHeight then .height
  else if contains m kwRaw then .raw
  else .fallback

/-- `split(msg, ",")`: the pieces between commas, empty pieces included (R187). -/
def splitCommas : Text → List Text
  | [] => [[]]
  | c :: rest =>
    if c = ',' then [] :: splitCommas rest
    else match splitCommas rest with
      | [] => [[c]]
      | f :: fs => (c :: f) :: fs

/-- A decimal digit `0`..`9` (R187). -/
def isDigit (c : Char) : Bool := decide ('0' ≤ c ∧ c ≤ '9')

/-- A letter (R185: "a field that must parse as an integer cannot contain letters"; log 5). -/
def isLetter (c : Char) : Bool := decide (('a' ≤ c ∧ c ≤ 'z') ∨ ('A' ≤ c ∧ c ≤ 'Z'))

/-- The value of a sequence of decimal digits, most significant first. -/
def digitsValue (ds : Text) : Nat := ds.foldl (fun n c => 10 * n + (c.toNat - '0'.toNat)) 0

/-- The digits after the optional `-` of a numeral, and whether there is a `-` (R187). -/
def signAndDigits (t : Text) : Bool × Text :=
  match t with
  | [] => (false, [])
  | c :: rest => if c = '-' then (true, rest) else (false, c :: rest)

/-- An optional `-` and one or more digits, no other character (R187). -/
def isNumeral (t : Text) : Bool :=
  let ds := (signAndDigits t).2
  !ds.isEmpty && ds.all isDigit

/-- A numeral with more than one digit whose first digit is `0` (R187, N14). -/
def hasLeadingZeros (t : Text) : Bool :=
  match (signAndDigits t).2 with
  | c :: _ :: _ => c == '0'
  | _ => false

/-- The integer a numeral denotes, unbounded (R187). -/
def numeralValue (t : Text) : Int :=
  let (neg, ds) := signAndDigits t
  if neg then -(digitsValue ds : Int) else (digitsValue ds : Int)

/-- `PARSE_INT` (R187, D17; log 5): a numeral gives its value, with leading zeros only if the open parameter accepts
them; a text with no digit or with a letter (R185) fails; anything else is the open parameter's. -/
def parseInt (t : Text) : Option Int :=
  if isNumeral t then
    if hasLeadingZeros t && !Config.acceptsLeadingZeros t then none else some (numeralValue t)
  else if !t.any isDigit || t.any isLetter then none
  else Config.parseIntOther t

end Sys2Proof
end

