-- ==== Sys2Proof/WellFormed.lean ====
section
/-!
DEFINITION. Which operations can be presented: a message operation is one whose text is of its class, since the relay
dispatches by CLASSIFY (44_command_relay.md R180, R181; log 25). Operand ranges are no part of it: a value out of range is a
legal operand, answered with `RangeError` (70_reset_and_hazards.md R236).
-/
namespace Sys2Proof

/-- The checks on an operation, one arm per constructor. -/
def Instr.wf : Instr → Bool
  | .motion _ _ _ => true
  | .height _ => true
  | .stop => true
  | .turn => true
  | .init0 => true
  | .init1 => true
  | .init2 => true
  | .init => true
  | .raw _ _ => true
  | .execute _ _ => true
  | .encode _ => true
  | .checksum _ => true
  | .reset _ _ => true
  | .classify _ => true
  | .exit => true
  | .motionMessage msg => Sys2Proof.classify msg == MsgKind.motion
  | .heightMessage msg => Sys2Proof.classify msg == MsgKind.height
  | .rawMessage msg => Sys2Proof.classify msg == MsgKind.raw
  | .fallback => true

end Sys2Proof
end

