-- ==== Sys2Proof/Decode.lean ====
section
/-!
DEFINITION. From a request to an operation: packed Command words by the masks of spec/opcode_table.json (30_encoding.md
R83; log 3), texts by CLASSIFY (44_command_relay.md R181), direct requests as they are (D3). Then the encoder.
-/
namespace Sys2Proof

/-- The kinds a packed Command is told apart into: the rows of the table that have a pattern. -/
inductive WordKind where
  | stop | turn | motion | height | init0 | init1
  deriving DecidableEq, Repr

/-- A row of the table: `match` and `mask`, element 0 first (R83). -/
structure WordRow where
  kind : WordKind
  pattern : List Byte
  mask : List Byte
  deriving DecidableEq, Repr

/-- The rows with a pattern, rows with more fixed bits first (R78: overlaps are deliberate; log 3). INIT2 has STOP's
pattern and is not listed again. -/
def wordRows : List WordRow :=
  [ ⟨.stop, [0x06, 0x00, 0x00, 0x00], [0xff, 0xff, 0xff, 0xff]⟩,
    ⟨.turn, [0x06, 0x00, 0x00, 0x50], [0xff, 0xff, 0xff, 0xff]⟩,
    ⟨.height, [0x04, 0x00, 0x07, 0x00], [0xff, 0xff, 0xff, 0x80]⟩,
    ⟨.motion, [0x06, 0x00, 0x00, 0x00], [0xff, 0x00, 0x00, 0x00]⟩,
    ⟨.init1, [0x07, 0x01], [0xff, 0xff]⟩,
    ⟨.init0, [0x10], [0xff]⟩ ]

/-- `(word and mask) = match`, on Commands of the row's length (R83). -/
def WordRow.matchesWord (r : WordRow) (bs : List Byte) : Bool :=
  bs.length == r.pattern.length && List.zipWith (· &&& ·) bs r.mask == r.pattern

/-- The operation of a matched row, operands by `sext_8` (R71 to R73). `[4,0,7,0]` matches H4's pattern but is no HEIGHT
command, only a RAW one (the table's note; R79). -/
def WordKind.build (k : WordKind) (bs : List Byte) : Option Instr :=
  match k, bs with
  | .stop, _ => some .stop
  | .turn, _ => some .turn
  | .motion, [_, f, s, t] => some (.motion (sext8 f) (sext8 s) (sext8 t))
  | .height, [_, _, _, h] => if h = 0x00#8 then none else some (.height (sext8 h))
  | .init0, _ => some .init0
  | .init1, _ => some .init1
  | _, _ => none

/-- The operation of a packed Command: the first matching row, else RAW, which every Command matches (R78, R83). -/
def decodeWord (bs : List Byte) : Instr :=
  match wordRows.find? (fun r => r.matchesWord bs) with
  | some r => (r.kind.build bs).getD (.raw [] (bs.map sext8))
  | none => .raw [] (bs.map sext8)

/-- The operation the relay dispatches a message to (R180). -/
def decodeText (msg : Text) : Instr :=
  match classify msg with
  | .exit => .exit
  | .motion => .motionMessage msg
  | .height => .heightMessage msg
  | .raw => .rawMessage msg
  | .fallback => .fallback

/-- Decoding a request, total; a request that is no operation is rejected by name. -/
def decode : Request → Except DecodeError Instr
  | .direct i => if i.wf then .ok i else .error .notOfItsKind
  | .word bs => .ok (decodeWord bs)
  | .text msg => .ok (decodeText msg)
  | .receiveFails => .error .noMessage

/-- The operation read from a Command of `nbits / 8` elements whose packed word is `w`, numbered as the table numbers it:
element `k` of `n` is bits `8*(n-1-k)+7 : 8*(n-1-k)` (R71, R83; log 3). -/
def decodeTableWord (nbits w : Nat) : Option Instr :=
  (decode (.word (bytesOfWord (nbits / 8) w))).toOption

/-- The packed word of an operation that has one, written from the formats of R71. -/
def encodeWord : Instr → Option (List Byte)
  | .motion f s t => some [0x06, pack8 f, pack8 s, pack8 t]
  | .height h => some [0x04, 0x00, 0x07, pack8 h]
  | .stop => some [0x06, 0x00, 0x00, 0x00]
  | .turn => some [0x06, 0x00, 0x00, 0x50]
  | .init0 => some [0x10]
  | .init1 => some [0x07, 0x01]
  | .init2 => some [0x06, 0x00, 0x00, 0x00]
  | .raw _ ints => some (ints.map pack8)
  | .init => none
  | .execute _ _ => none
  | .encode _ => none
  | .checksum _ => none
  | .reset _ _ => none
  | .classify _ => none
  | .exit => none
  | .motionMessage _ => none
  | .heightMessage _ => none
  | .rawMessage _ => none
  | .fallback => none

/-- The operand values a packed word can hold, and that no row with more fixed bits takes away (R78, R82): MOTION but for
the words of STOP and TURN, HEIGHT in 1..127, RAW without a description and with a word no other row matches. -/
def Instr.hasOwnWord : Instr → Bool
  | .motion f s t => isSignedByte f && isSignedByte s && isSignedByte t &&
      !(f == 0 && s == 0 && t == 0) && !(f == 0 && s == 0 && t == 80)
  | .height h => isHeight h
  | .stop => true
  | .turn => true
  | .init0 => true
  | .init1 => true
  | .init2 => false
  | .raw d ints => d.isEmpty && ints.all isSignedByte &&
      (decodeWord (ints.map pack8) == .raw [] ints)
  | .init => false
  | .execute _ _ => false
  | .encode _ => false
  | .checksum _ => false
  | .reset _ _ => false
  | .classify _ => false
  | .exit => false
  | .motionMessage _ => false
  | .heightMessage _ => false
  | .rawMessage _ => false
  | .fallback => false

/-- The text of an operation that arrives as a message (R81, R182, R186): the empty text is a FALLBACK. -/
def encodeText : Instr → Option Text
  | .exit => some kwExit
  | .motionMessage msg => some msg
  | .heightMessage msg => some msg
  | .rawMessage msg => some msg
  | .fallback => some []
  | .motion _ _ _ => none
  | .height _ => none
  | .stop => none
  | .turn => none
  | .init0 => none
  | .init1 => none
  | .init2 => none
  | .init => none
  | .raw _ _ => none
  | .execute _ _ => none
  | .encode _ => none
  | .checksum _ => none
  | .reset _ _ => none
  | .classify _ => none

/-- The encoder: the packed word where the operation has one of its own, the message text of a message operation, else
the request port. -/
def encode (i : Instr) : Request :=
  match encodeText i with
  | some msg => .text msg
  | none =>
    match encodeWord i with
    | some bs => if i.hasOwnWord then .word bs else .direct i
    | none => .direct i

end Sys2Proof
end

