-- ==== Sys2Proof/Machine/State.lean ====
section
/-!
DEFINITION. The state of the block and of its host (10_state.md R20 to R35, 44_command_relay.md R180), the results an
operation can return (60_exceptions.md R200 to R205), the reasons a step can stop (R213), and the state after reset.
-/
namespace Sys2Proof.Machine

/-- PHASE, in the order the values are passed through (R27). -/
inductive Phase where
  | idle | validate | range | pack | stuff | checksum | terminate | render | write | delay
  deriving DecidableEq, Repr, Inhabited

/-- RELAY (R180). -/
inductive RelayState where
  | running | terminated
  deriving DecidableEq, Repr, Inhabited

/-- The field a `RangeError` names (R200). -/
inductive Field where
  | element (index : Nat)
  | fwd | strafe | turn | height | opcode
  deriving DecidableEq, Repr

/-- The constraint a `RangeError` names (R200): -128..127, 1..127, = 6. -/
inductive Constraint where
  | signedByte | height | opcodeSix
  deriving DecidableEq, Repr

/-- What a `ParseError` records (R183 to R185, R200): the expected number of fields, or the field that is no integer. -/
inductive ParseInfo where
  | exactly (fields : Nat)
  | atLeast (fields : Nat)
  | notInteger (field : Nat)
  deriving DecidableEq, Repr

/-- The error kinds with their information records (R200). `CommandValidationError` is another name of `range` (R205). -/
inductive Err where
  | range (field : Field) (value : Int) (constraint : Constraint)
  | parse (info : ParseInfo)
  | transport
  /-- Never returned by any operation (R122, R204). -/
  | encoding
  deriving DecidableEq, Repr

/-- The value of a successful operation (R10, R25): a hex text, a checksum byte, or no value. -/
inductive Value where
  | done
  | hex (text : Text)
  | byte (b : Byte)
  deriving DecidableEq, Repr

/-- What an operation returns (R10). -/
inductive OpResult where
  | ok (v : Value)
  | err (e : Err)
  deriving DecidableEq, Repr

/-- An event of TXLOG (R29). -/
inductive Event where
  | tx (frame : List Byte) (outcome : SinkAnswer)
  | gap
  deriving DecidableEq, Repr

/-- The index spaces (20_memory.md R50). -/
inductive Space where
  | cmd | rawb | stuffed | frame | hex | initrom | txlog
  deriving DecidableEq, Repr

/-- An element of an index space (R50). -/
inductive Elem where
  | int (v : Int)
  | byte (b : Byte)
  | char (c : Char)
  | command (c : Command)
  | event (e : Event)
  deriving DecidableEq, Repr

/-- The registers and buffers a host read can find without a value (10_state.md R34, R35). -/
inductive Register where
  | cmd | len | rawb | stuffed | frame | hex | result
  deriving DecidableEq, Repr

/-- The state. A field of type `Option` holds `none` where the spec says the register holds NO VALUE: after reset and,
for the codec's buffers, after an operation that ended in `RangeError` (R22, R34; log 9). -/
@[ext]
structure State where
  /-- CUR_HEIGHT, 1..127 (R23). -/
  curHeight : Int
  /-- FATAL (R24). -/
  fatal : Bool
  /-- CFG_DEFAULT_HEIGHT, 1..127 (R26). -/
  cfgDefaultHeight : Int
  /-- CFG_DELAY, a duration without a unit; no rule depends on its value (R26, R250, D11; log 7, log 12). -/
  cfgDelay : Nat
  /-- MAX_LEN, fixed for the machine; `none` is no bound (R6, D6; log 8). -/
  maxLen : Option Nat
  /-- CMD, the entries `0..LEN-1`; LEN is its length (R21; log 20). -/
  cmd : Option Command
  /-- RAWB (R22). -/
  rawb : Option (List Byte)
  /-- STUFFED; SLEN is its length (R22; log 20). -/
  stuffed : Option (List Byte)
  /-- CHK (R22). -/
  chk : Option Byte
  /-- FRAME (R22). -/
  frame : Option (List Byte)
  /-- HEX (R22). -/
  hex : Option Text
  /-- PHASE (R27). -/
  phase : Phase
  /-- SEQ_IDX, 0..3 (R28). -/
  seqIdx : Option (Fin 4)
  /-- RESULT (R25). -/
  result : Option OpResult
  /-- TXLOG, oldest event first (R29). -/
  txlog : List Event
  /-- RELAY, state of the host (R33, R180). -/
  relay : RelayState
  /-- `kind` of the relay loop, state of the host (R180). -/
  relayKind : Option MsgKind
  /-- `r` of the relay loop, state of the host (R180; log 13). -/
  relayR : Option OpResult
  /-- The model's own: what the host will present, oldest first (log 2). -/
  requests : List Request
  /-- The model's own: the answers the sink will give, oldest first (log 4). -/
  sinkInputs : List SinkAnswer
  /-- The model's own: how many answers were drawn as free values (log 4). -/
  sinkDraws : Nat
  deriving DecidableEq, Repr

/-- Faults. The block does not trap or hang (00_scope.md R14): an error is a returned result. -/
inductive Fault where
  /-- Raised by nobody. The self-check of a chip's codec (R122, U5), a defect no rule describes. Safe: no step raises it
  (log 22). -/
  | codecSelfCheck
  deriving DecidableEq, Repr

/-- Refusals: requests that have no transition (60_exceptions.md R213). -/
inductive Refusal where
  /-- Raised by the arm of an operation that has no meaning yet; no arm is left. Safe. -/
  | notModelled (mnemonic : String)
  /-- Raised by every request to the block while FATAL is 1 (R213 a, R24). Safe: the spec gives no transition. -/
  | sessionFatal
  /-- Raised by every request to the block while PHASE is not IDLE (R213 b, R171). Safe: the spec gives no transition. -/
  | busy
  /-- Raised by RAW, EXECUTE and ENCODE with a Command longer than MAX_LEN (R213 c, R79 f). Safe: it cannot be
  presented. -/
  | commandTooLong
  /-- Raised by RESET with a default height outside 1..127 (R213 d, R230). Safe: the spec refuses it. -/
  | illegalDefaultHeight
  /-- Raised by `readHeld`, the host's read of a register without a value, and by no operation and no step. The spec refuses
  the read by name: R213 (e), R34, R22, 93_implementation_defined.md U3. Safe: never answered with a value. -/
  | noValue (r : Register)
  /-- Raised by a read outside the valid indices of a space (20_memory.md R54). Safe. -/
  | outOfRange (s : Space) (index : Nat)
  /-- Raised by a message, or a failing receive, when the relay loop has ended (44_command_relay.md R180, R189). Safe. -/
  | relayTerminated
  /-- Raised by `step` on a request that is no operation. Safe. -/
  | undecodable (e : DecodeError)
  deriving DecidableEq, Repr

/-- The machine right after reset (R34), configured as Config.lean says (log 6, log 7, log 8), nothing presented yet. -/
def State.reset : State where
  curHeight := Config.defaultHeight
  fatal := false
  cfgDefaultHeight := Config.defaultHeight
  cfgDelay := Config.delay
  maxLen := Config.maxLen
  cmd := none
  rawb := none
  stuffed := none
  chk := none
  frame := none
  hex := none
  phase := .idle
  seqIdx := none
  result := none
  txlog := []
  relay := .running
  relayKind := none
  relayR := none
  requests := []
  sinkInputs := []
  sinkDraws := 0

end Sys2Proof.Machine
end

