-- ==== Sys2Proof/Machine/Codec.lean ====
section
/-!
DEFINITION. The checksum (40_checksum.md) and the frame codec (41_frame_codec.md) at function level: pure total functions
of the Command and of COBS_TRAILING_POLICY (00_scope.md R11, R13).
-/
namespace Sys2Proof.Machine

/-! ### CHECKSUM -/

/-- The sum of the byte values, unsigned (R8, R102). -/
def byteSum (bs : List Byte) : Nat := (bs.map BitVec.toNat).sum

/-- CHECKSUM (R100). -/
def checksum (bs : List Byte) : Byte :=
  let s := byteSum bs % 256
  BitVec.ofNat 8 ((s + 1) % 256)

/-- CHECKSUM_LITERAL, the reference's sequence of operations (R101). -/
def checksumLiteral (bs : List Byte) : Byte :=
  let s := byteSum bs % 256
  let t := s ^^^ 256
  let u := t + 1
  BitVec.ofNat 8 (u % 256)

/-! ### RANGE and PACK -/

/-- RANGE from index `i` on: the first element that is no SignedByte, with its index (R112, D9). -/
def rangeFrom (i : Nat) : Command → Option (Nat × Int)
  | [] => none
  | v :: rest => if isSignedByte v then rangeFrom (i + 1) rest else some (i, v)

/-- RANGE: the error it raises, if any (R112). -/
def rangeCheck (cmd : Command) : Option Err :=
  match rangeFrom 0 cmd with
  | none => none
  | some (i, v) => some (.range (.element i) v .signedByte)

/-- PACK (R113). -/
def pack (cmd : Command) : List Byte := cmd.map pack8

/-! ### STUFF -/

/-- The variables of STUFF's loop: completed blocks, data bytes of the open block, and whether a block is open (R115). -/
structure StuffState where
  out : List Byte
  blk : List Byte
  isOpen : Bool
  deriving DecidableEq, Repr

/-- A closed block: its code byte, one more than its data bytes, and the data bytes (R74, R115). -/
def block (blk : List Byte) : List Byte := BitVec.ofNat 8 (blk.length + 1) :: blk

/-- The loop body of STUFF on one byte (R115). -/
def stuffByte (p : TrailingPolicy) (st : StuffState) (b : Byte) : StuffState :=
  let blk := if st.isOpen then st.blk else []
  if b = 0x00#8 then { out := st.out ++ block blk, blk := [], isOpen := true }
  else
    let grown := blk ++ [b]
    if grown.length = Config.cobsFullRun then
      { out := st.out ++ 0xff#8 :: grown, blk := [], isOpen := p == .emitBlock }
    else { out := st.out, blk := grown, isOpen := true }

/-- What STUFF does after its loop (R115). -/
def stuffEnd (st : StuffState) : List Byte :=
  if st.isOpen then st.out ++ block st.blk else st.out

/-- STUFF, byte at a time, the normative definition (R115). -/
def stuff (p : TrailingPolicy) (raw : List Byte) : List Byte :=
  stuffEnd (raw.foldl (stuffByte p) { out := [], blk := [], isOpen := true })

/-! ### STUFF by segments, the equivalent definition (R116) -/

/-- `raw` split at its zero bytes (R116). -/
def segments : List Byte → List (List Byte)
  | [] => [[]]
  | b :: rest =>
    if b = 0x00#8 then [] :: segments rest
    else match segments rest with
      | [] => [[b]]
      | s :: ss => (b :: s) :: ss

/-- The first `q` full blocks of a segment (R116). -/
def fullBlocks : Nat → List Byte → List Byte
  | 0, _ => []
  | q + 1, s => 0xff#8 :: s.take Config.cobsFullRun ++ fullBlocks q (s.drop Config.cobsFullRun)

/-- ENCSEG (R116). -/
def encSeg (p : TrailingPolicy) (s : List Byte) (last : Bool) : List Byte :=
  let q := s.length / Config.cobsFullRun
  let m := s.length % Config.cobsFullRun
  fullBlocks q s ++
    if m > 0 ∨ q = 0 ∨ last = false ∨ p = .emitBlock then
      BitVec.ofNat 8 (m + 1) :: s.drop (Config.cobsFullRun * q)
    else []

/-- ENCSEG of every segment in order, the last one marked (R116). -/
def encSegs (p : TrailingPolicy) : List (List Byte) → List Byte
  | [] => []
  | [s] => encSeg p s true
  | s :: ss => encSeg p s false ++ encSegs p ss

/-- STUFF by segments (R116). -/
def stuffBySegments (p : TrailingPolicy) (raw : List Byte) : List Byte := encSegs p (segments raw)

/-! ### UNSTUFF, informative (R118): the block contains no decoder -/

/-- UNSTUFF with a bound on the number of blocks; `none` on a malformed input (R118, K2). -/
def unstuffFuel : Nat → List Byte → Option (List Byte)
  | _, [] => some []
  | 0, _ :: _ => none
  | n + 1, c :: rest =>
    if c = 0x00#8 then none
    else if rest.length < c.toNat - 1 then none
    else
      let data := rest.take (c.toNat - 1)
      let more := rest.drop (c.toNat - 1)
      match unstuffFuel n more with
      | none => none
      | some out => some (data ++ (if c ≠ 0xff#8 ∧ more ≠ [] then 0x00#8 :: out else out))

/-- UNSTUFF (R118): every block has at least one byte, so the input's length bounds the number of blocks. -/
def unstuff (st : List Byte) : Option (List Byte) := unstuffFuel st.length st

/-! ### TERMINATE, RENDER and the un-hexing of 20_memory.md R61 -/

/-- TERMINATE (R120). -/
def terminate (stuffed : List Byte) (chk : Byte) : List Byte := stuffed ++ [chk] ++ [Config.terminator]

/-- The two characters of a byte, high nibble first (R52, R77). -/
def hexByte (b : Byte) : Text := [hexDigit (highNibble b), hexDigit (lowNibble b)]

/-- RENDER (R121). -/
def render (frame : List Byte) : Text := frame.flatMap hexByte

/-- Un-hexing: two characters at a time, high nibble first (R61). -/
def unhex : Text → Option (List Byte)
  | [] => some []
  | [_] => none
  | h :: l :: rest =>
    match hexValue h, hexValue l, unhex rest with
    | some a, some b, some bs => some (BitVec.ofNat 8 (16 * a + b) :: bs)
    | _, _, _ => none

/-! ### ENCODE -/

/-- What the codec's stages leave: RAWB, STUFFED, CHK, FRAME, HEX (R22, R110). -/
structure Encoded where
  raw : List Byte
  stuffed : List Byte
  chk : Byte
  frame : List Byte
  hex : Text
  deriving DecidableEq, Repr

/-- The stages PACK to RENDER in their fixed order, on a Command that passed RANGE (R110, R111). -/
def encodeStages (p : TrailingPolicy) (cmd : Command) : Encoded :=
  let raw := pack cmd
  let stuffed := stuff p raw
  let chk := checksum stuffed
  let frame := terminate stuffed chk
  { raw := raw, stuffed := stuffed, chk := chk, frame := frame, hex := render frame }

/-- ENCODE with all its buffers, for a given trailing policy (R110). -/
def codecWith (p : TrailingPolicy) (cmd : Command) : Except Err Encoded :=
  match rangeCheck cmd with
  | some e => .error e
  | none => .ok (encodeStages p cmd)

/-- ENCODE with the build's trailing policy (R6, D8). -/
def codec (cmd : Command) : Except Err Encoded := codecWith Config.cobsTrailingPolicy cmd

/-- ENCODE at function level: `Ok(hex)` or `Err(RangeError, ...)` (R110). -/
def encodeHex (cmd : Command) : Except Err Text := (codec cmd).map Encoded.hex

end Sys2Proof.Machine
end

