-- ==== Sys2Proof/Machine/Operands.lean ====
section
/-!
DEFINITION. Operand forms: the serializers of 42_command_model.md (R140 to R146), which turn typed operands into a Command
or a `RangeError`, and the operands of the text messages (44_command_relay.md R183 to R185).
-/
namespace Sys2Proof.Machine

/-! ### Serializers -/

/-- BUILD_MOTION: the operands checked in the order fwd, strafe, turn (R141, D9). -/
def buildMotion (fwd strafe turn : Int) : Except Err Command :=
  if !isSignedByte fwd then .error (.range .fwd fwd .signedByte)
  else if !isSignedByte strafe then .error (.range .strafe strafe .signedByte)
  else if !isSignedByte turn then .error (.range .turn turn .signedByte)
  else .ok [Config.opMotion, fwd, strafe, turn]

/-- BUILD_HEIGHT (R142). -/
def buildHeight (height : Int) : Except Err Command :=
  if !isHeight height then .error (.range .height height .height)
  else .ok [Config.opHeight, Config.heightK1, Config.heightK2, height]

/-- BUILD_STOP (R143). -/
def buildStop : Command := [6, 0, 0, 0]

/-- BUILD_TURN (R144). -/
def buildTurn : Command := [6, 0, 0, Config.turnValue]

/-- BUILD_RAW: the integers verbatim; the description is no part of the Command (R145). -/
def buildRaw (_description : Text) (ints : Command) : Command := ints

/-- INITROM (R30, R146). -/
def initRom : List Command := [[16], [7, 1], [6, 0, 0, 0]]

/-- `INITROM[k]` (R30). -/
def initCommand (k : Fin 3) : Command := initRom.getD k.val []

/-! ### Operands of messages -/

/-- `PARSE_INT` of field `i` (R183 to R185). -/
def parseField (i : Nat) (t : Text) : Except Err Int :=
  match parseInt t with
  | some v => .ok v
  | none => .error (.parse (.notInteger i))

/-- `PARSE_INT` of the fields from index `i` on, left to right, the first failure reported (R185, R214). -/
def parseFields (i : Nat) : List Text → Except Err (List Int)
  | [] => .ok []
  | t :: rest =>
    match parseField i t with
    | .error e => .error e
    | .ok v =>
      match parseFields (i + 1) rest with
      | .error e => .error e
      | .ok vs => .ok (v :: vs)

/-- The operands of a MOTION message: field count, then the four integers, then the opcode (R183, R214, D15). -/
def motionOperands (msg : Text) : Except Err (Int × Int × Int) :=
  match splitCommas msg with
  | [_, o, f, s, t] =>
    match parseFields 1 [o, f, s, t] with
    | .ok [op, fwd, strafe, turn] =>
      if op = Config.opMotion then .ok (fwd, strafe, turn) else .error (.range .opcode op .opcodeSix)
    | .ok _ => .error (.parse (.exactly 5))
    | .error e => .error e
  | _ => .error (.parse (.exactly 5))

/-- The operand of a HEIGHT message (R184). -/
def heightOperand (msg : Text) : Except Err Int :=
  match splitCommas msg with
  | [_, h] => parseField 1 h
  | _ => .error (.parse (.exactly 2))

/-- The operands of a RAW message: description and at least one integer (R185, D16). -/
def rawOperands (msg : Text) : Except Err (Text × Command) :=
  match splitCommas msg with
  | d :: f :: fs =>
    match parseFields 1 (f :: fs) with
    | .ok ints => .ok (d, ints)
    | .error e => .error e
  | _ => .error (.parse (.atLeast 2))

end Sys2Proof.Machine
end

