-- ==== Sys2Proof/Machine/Flags.lean ====
section
/-!
DEFINITION. Status. The block has no condition codes (10_state.md R31); its status is the sticky bit FATAL (R24) and the
outcome in RESULT with its numeric code (60_exceptions.md R200, D18). What an outcome means for the session (R188).
-/
namespace Sys2Proof.Machine

/-- The numeric code of an error kind (R200, D18). -/
def Err.code : Err → Nat
  | .range _ _ _ => 1
  | .parse _ => 2
  | .transport => 3
  | .encoding => 4

/-- The numeric code of an outcome; 0 is Ok (R200, D18). -/
def OpResult.code : OpResult → Nat
  | .ok _ => 0
  | .err e => e.code

/-- The outcome is `Ok`. -/
def OpResult.isOk : OpResult → Bool
  | .ok _ => true
  | .err _ => false

/-- The outcome ends the relay's session: `TransportError` only (R188). -/
def OpResult.endsSession (r : OpResult) : Bool := r == .err .transport

/-- FATAL after a hand-over: set by a failed one, never cleared (R24, R162). -/
def fatalAfter (fatal : Bool) (answer : SinkAnswer) : Bool := fatal || answer == .fail

/-- The outcome of an EXECUTE whose frame was handed over (R160). -/
def sendOutcome (hex : Text) : SinkAnswer → OpResult
  | .ok => .ok (.hex hex)
  | .fail => .err .transport

end Sys2Proof.Machine
end

