-- ==== Sys2Proof/Machine/Ops.lean ====
section
/-!
DEFINITION. The named operations over the state: loading a Command, the codec's stages, the transport port, the delay, the
send primitive, raising an error (the block's only exception, 60_exceptions.md R210) and completing, the acceptance of a
request (R171, R213), RESET's state, and the host's reads (10_state.md R35).
-/
namespace Sys2Proof.Machine

/-! ### Views of registers held once (log 20) -/

/-- LEN (R21). -/
def State.len (s : State) : Option Nat := s.cmd.map List.length

/-- SLEN (R22). -/
def State.slen (s : State) : Option Nat := s.stuffed.map List.length

/-! ### Phases and buffers -/

/-- `PHASE <- p` (R27). -/
def State.enter (s : State) (p : Phase) : State := { s with phase := p }

/-- CMD and LEN loaded at acceptance (R21, R60). -/
def State.load (s : State) (cmd : Command) : State := { s with cmd := some cmd }

/-- The codec's buffers hold no value: their content after an operation that ended in `RangeError` (R22, U3; log 9). -/
def State.dropBuffers (s : State) : State :=
  { s with rawb := none, stuffed := none, chk := none, frame := none, hex := none }

/-- The stage PACK: its phase, and RAWB (R22, R27, R113). -/
def State.stagePack (s : State) (raw : List Byte) : State := { s with phase := .pack, rawb := some raw }

/-- The stage STUFF: its phase, and STUFFED (R22, R27, R115). -/
def State.stageStuff (s : State) (st : List Byte) : State := { s with phase := .stuff, stuffed := some st }

/-- The stage CHECKSUM: its phase, and CHK (R22, R27, R119). -/
def State.stageChecksum (s : State) (c : Byte) : State := { s with phase := .checksum, chk := some c }

/-- The stage TERMINATE: its phase, and FRAME (R22, R27, R120). -/
def State.stageTerminate (s : State) (f : List Byte) : State := { s with phase := .terminate, frame := some f }

/-- The stage RENDER: its phase, and HEX (R22, R27, R121). -/
def State.stageRender (s : State) (h : Text) : State := { s with phase := .render, hex := some h }

/-- The stages after RANGE in their fixed order (R27, R111). -/
def State.runStages (s : State) (e : Encoded) : State :=
  ((((s.stagePack e.raw).stageStuff e.stuffed).stageChecksum e.chk).stageTerminate e.frame).stageRender e.hex

/-! ### The transport port and the delay -/

/-- The sink's answer to the next hand-over: the next input, else a free value (R161, U6; log 4). -/
def State.sinkAnswer (s : State) : SinkAnswer :=
  match s.sinkInputs with
  | a :: _ => a
  | [] => Config.sinkAnswer s.sinkDraws

/-- The answer is taken: the input is used up, or the draw counted (log 4). -/
def State.takeAnswer (s : State) : State :=
  match s.sinkInputs with
  | _ :: rest => { s with sinkInputs := rest }
  | [] => { s with sinkDraws := s.sinkDraws + 1 }

/-- WRITE: the whole frame handed over, the event recorded, FATAL set if the sink answers fail (R160 to R162). -/
def State.sinkWrite (s : State) (frame : List Byte) : State :=
  let a := s.sinkAnswer
  { s.takeAnswer with
    phase := .write
    txlog := s.txlog ++ [.tx frame a]
    fatal := fatalAfter s.fatal a }

/-- DELAY: at least CFG_DELAY has elapsed (R163; log 12). -/
def State.waitDelay (s : State) : State := { s with phase := .delay, txlog := s.txlog ++ [.gap] }

/-! ### Operations that return a result: `State → State × OpResult` -/

/-- ENCODE at transaction level (R110). -/
def encodeOp (cmd : Command) (s : State) : State × OpResult :=
  let s := (s.load cmd).enter .range
  match codec cmd with
  | .error e => (s.dropBuffers, .err e)
  | .ok enc => (s.runStages enc, .ok (.hex enc.hex))

/-- EXECUTE: encode, hand over, delay (R160). The description has no effect. -/
def executeOp (cmd : Command) (_description : Text) (s : State) : State × OpResult :=
  let s := (s.load cmd).enter .range
  match codec cmd with
  | .error e => (s.dropBuffers, .err e)
  | .ok enc =>
    let s := s.runStages enc
    ((s.sinkWrite enc.frame).waitDelay, sendOutcome enc.hex s.sinkAnswer)

/-- EXECUTE of what a serializer returned: nothing is encoded when it failed (R164, R166, R201; log 9). -/
def executeBuilt (built : Except Err Command) (description : Text) (s : State) : State × OpResult :=
  let s := s.enter .validate
  match built with
  | .error e => (s.dropBuffers, .err e)
  | .ok cmd => executeOp cmd description s

/-- MOVE_MOTION (R164). -/
def moveMotionOp (fwd strafe turn : Int) : State → State × OpResult :=
  executeBuilt (buildMotion fwd strafe turn) ['m', 'o', 't', 'i', 'o', 'n']

/-- SET_HEIGHT: `CUR_HEIGHT <- height` only after the send returned Ok (R166). -/
def setHeightOp (height : Int) (s : State) : State × OpResult :=
  let x := executeBuilt (buildHeight height) ['h', 'e', 'i', 'g', 'h', 't'] s
  (if x.2.isOk then { x.1 with curHeight := height } else x.1, x.2)

/-- STOP (R167). -/
def stopOp : State → State × OpResult := executeBuilt (.ok buildStop) ['s', 't', 'o', 'p']

/-- TURN (R168). -/
def turnOp : State → State × OpResult := executeBuilt (.ok buildTurn) ['t', 'u', 'r', 'n']

/-- SEND_RAW (R165). -/
def sendRawOp (description : Text) (ints : Command) : State → State × OpResult :=
  executeBuilt (.ok (buildRaw description ints)) description

/-- One step of INIT: EXECUTE of `INITROM[k]` with `SEQ_IDX = k` before, and `k + 1` after if it returned Ok (R28, R170;
log 15). -/
def initStepOp (k : Fin 3) (s : State) : State × OpResult :=
  let x := executeOp (initCommand k) ['i', 'n', 'i', 't'] { s with seqIdx := some k.castSucc }
  (if x.2.isOk then { x.1 with seqIdx := some k.succ } else x.1, x.2)

/-- The loop of INIT over the steps still to do, stopping at the first error (R170). -/
def initLoop : List (Fin 3) → State → State × OpResult
  | [], s => (s, .ok .done)
  | k :: ks, s =>
    let x := initStepOp k s
    if x.2.isOk then initLoop ks x.1 else x

/-- INIT (R170). -/
def initOp : State → State × OpResult := initLoop [0, 1, 2]

/-- CHECKSUM as a request: it writes nothing and returns the byte (R100; log 14). -/
def checksumOp (bs : List Byte) (s : State) : State × OpResult := (s, .ok (.byte (checksum bs)))

/-! ### Raising an error, completing, and acceptance -/

/-- `raise K(info)`: RESULT takes the error, PHASE returns to IDLE, control returns to the host; nothing is saved or
masked (R210). There is no return operation (R212). -/
def State.raiseError (s : State) (e : Err) : State := { s with result := some (.err e), phase := .idle }

/-- The completion of an operation that returned Ok (R25, R215). -/
def State.completeOk (s : State) (v : Value) : State := { s with result := some (.ok v), phase := .idle }

/-- The end of an operation (R25, R210). -/
def State.finish (s : State) : OpResult → State
  | .ok v => s.completeOk v
  | .err e => s.raiseError e

/-- The Command fits the command buffer (R6, R79 f). -/
def State.fits (s : State) (cmd : Command) : Bool :=
  match s.maxLen with
  | none => true
  | some m => decide (cmd.length ≤ m)

/-- A request is accepted only when FATAL is 0 and PHASE is IDLE, and then runs to its result; otherwise it is refused
(R171, R213). -/
def request (op : State → State × OpResult) (s : State) : Host.Outcome (State × OpResult) Fault Refusal :=
  if s.fatal then .refused .sessionFatal
  else if s.phase ≠ .idle then .refused .busy
  else .next ((op s).1.finish (op s).2, (op s).2)

/-- A request that carries a Command of any length: also refused when it does not fit (R213 c). -/
def requestCommand (cmd : Command) (op : State → State × OpResult) (s : State) :
    Host.Outcome (State × OpResult) Fault Refusal :=
  if s.fits cmd then request op s else .refused .commandTooLong

/-- The state a request leaves; its result stands in RESULT. -/
def answered : Host.Outcome (State × OpResult) Fault Refusal → Host.Outcome State Fault Refusal
  | .next x => .next x.1
  | .fault f => .fault f
  | .refused r => .refused r

/-! ### RESET -/

/-- The state after RESET with the configuration `h`, `d` (R34, R230): the reset state with this configuration; MAX_LEN and
the inputs still to come are out of its reach (log 16). -/
def State.afterReset (s : State) (h : Int) (d : Nat) : State :=
  { State.reset with
    curHeight := h
    cfgDefaultHeight := h
    cfgDelay := d
    maxLen := s.maxLen
    requests := s.requests
    sinkInputs := s.sinkInputs
    sinkDraws := s.sinkDraws }

/-! ### The relay's own operations -/

/-- The end of a message: `kind` and `r` are set, and a `TransportError` ends the loop (R180, R188). -/
def State.relayDone (s : State) (k : MsgKind) (r : OpResult) : State :=
  { s with
    relayKind := some k
    relayR := some r
    relay := if r.endsSession then .terminated else s.relay }

/-- A message is handled only while the loop runs (R180, R189). -/
def whileRunning (s : State) (next : Host.Outcome State Fault Refusal) : Host.Outcome State Fault Refusal :=
  if s.relay = .running then next else .refused .relayTerminated

/-- The relay hands a request to the block and takes its result (R180, R183 to R186). -/
def relayDispatch (k : MsgKind) : Host.Outcome (State × OpResult) Fault Refusal → Host.Outcome State Fault Refusal
  | .next x => .next (x.1.relayDone k x.2)
  | .fault f => .fault f
  | .refused r => .refused r

/-- `RECEIVE` raised `TransportError`: the loop ends (R180, R188; log 17). -/
def receiveFailure (s : State) : Host.Outcome State Fault Refusal :=
  whileRunning s (.next { s with relayR := some (.err .transport), relay := .terminated })

/-! ### Reads of the host (R35, R54, R56, R213 e) -/

/-- The host's read of a register or buffer. One that holds no value is refused, as the spec says: "a read of a register or
buffer that holds no value" is among the refusals of R213 (e), "a read before the first write is refused, never answered
with zero" (R34), and 93_implementation_defined.md U3 gives `refuse` as the treatment. The host's reads are the only users:
no operation and no step reads through it (Laws/Refusals.lean). -/
def readHeld {α : Type} (r : Register) : Option α → Except Refusal α
  | some v => .ok v
  | none => .error (.noValue r)

/-- The elements of a space, read by the host (R50). -/
def State.space (s : State) : Space → Except Refusal (List Elem)
  | .cmd => readHeld .cmd (s.cmd.map (List.map .int))
  | .rawb => readHeld .rawb (s.rawb.map (List.map .byte))
  | .stuffed => readHeld .stuffed (s.stuffed.map (List.map .byte))
  | .frame => readHeld .frame (s.frame.map (List.map .byte))
  | .hex => readHeld .hex (s.hex.map (List.map .char))
  | .initrom => .ok (initRom.map .command)
  | .txlog => .ok (s.txlog.map .event)

/-- `MemRead(space:idx, n)`: `n` consecutive elements, in increasing order; an index outside the space is refused
(00_scope.md R9, 20_memory.md R50, R54). -/
def State.memRead (s : State) (sp : Space) (idx n : Nat) : Except Refusal (List Elem) :=
  match s.space sp with
  | .error r => .error r
  | .ok es => if n = 0 ∨ idx + n ≤ es.length then .ok ((es.drop idx).take n) else .error (.outOfRange sp (max idx es.length))

/-- The host's read of RESULT (R25, R35). -/
def State.readResult (s : State) : Except Refusal OpResult := readHeld .result s.result

/-- The host's read of CUR_HEIGHT, at any time (R23, R35). -/
def State.readHeight (s : State) : Int := s.curHeight

/-- The host's read of LEN (R21, R34). -/
def State.readLen (s : State) : Except Refusal Nat := readHeld .len s.len

end Sys2Proof.Machine
end

