-- ==== Sys2Proof/Machine/CodecFamily.lean ====
section
/-!
DEFINITION. The meanings of ENCODE (41_frame_codec.md R110) and CHECKSUM (40_checksum.md R100).
-/
namespace Sys2Proof.Machine

/-- ENCODE (R110): no event, no session state; a Command over MAX_LEN is refused (R213 c). -/
def execEncode (cmd : Command) (s : State) : Host.Outcome State Fault Refusal :=
  answered (requestCommand cmd (encodeOp cmd) s)

/-- CHECKSUM (R100; log 14). -/
def execChecksum (bytes : List Byte) (s : State) : Host.Outcome State Fault Refusal :=
  answered (request (checksumOp bytes) s)

end Sys2Proof.Machine
end

