-- ==== Sys2Proof/Machine/RelayFamily.lean ====
section
/-!
DEFINITION. The meanings of the text front end's operations (44_command_relay.md R181 to R188): each is one turn of the
relay loop on a message of its class, the host's part first, then the requests to the block.
-/
namespace Sys2Proof.Machine

/-- CLASSIFY: the class of a text, returned to the relay as `kind` (R180, R181). DESIGN CHOICE (log 24), unsafe: requested on
its own it writes the relay's `kind`, not RESULT, whether the loop runs or has ended, and whatever FATAL is. -/
def execClassify (msg : Text) (s : State) : Host.Outcome State Fault Refusal :=
  .next { s with relayKind := some (classify msg) }

/-- EXIT: the loop ends, nothing reaches the block (R182). -/
def execExit (s : State) : Host.Outcome State Fault Refusal :=
  whileRunning s (.next { s.relayDone .exit (.ok .done) with relay := .terminated })

/-- MOTION message (R183): an error of the front end, or MOVE_MOTION. DESIGN CHOICE (log 9, log 13), unsafe: the front end's
errors, the RangeError on the opcode too, leave the block as it was, RESULT and the codec's buffers included. -/
def execMotionMessage (msg : Text) (s : State) : Host.Outcome State Fault Refusal :=
  whileRunning s <|
    match motionOperands msg with
    | .error e => .next (s.relayDone .motion (.err e))
    | .ok (fwd, strafe, turn) => relayDispatch .motion (request (moveMotionOp fwd strafe turn) s)

/-- HEIGHT message (R184): an error of the front end, or SET_HEIGHT. -/
def execHeightMessage (msg : Text) (s : State) : Host.Outcome State Fault Refusal :=
  whileRunning s <|
    match heightOperand msg with
    | .error e => .next (s.relayDone .height (.err e))
    | .ok height => relayDispatch .height (request (setHeightOp height) s)

/-- RAW message (R185): an error of the front end, or SEND_RAW. -/
def execRawMessage (msg : Text) (s : State) : Host.Outcome State Fault Refusal :=
  whileRunning s <|
    match rawOperands msg with
    | .error e => .next (s.relayDone .raw (.err e))
    | .ok (d, ints) => relayDispatch .raw (requestCommand ints (sendRawOp d ints) s)

/-- TURN, and STOP if TURN returned Ok: two requests, one after the other (R186). -/
def fallbackRequests (s : State) : Host.Outcome (State × OpResult) Fault Refusal :=
  match request turnOp s with
  | .next x => if x.2.isOk then request stopOp x.1 else .next x
  | .fault f => .fault f
  | .refused r => .refused r

/-- FALLBACK (R186). -/
def execFallback (s : State) : Host.Outcome State Fault Refusal :=
  whileRunning s (relayDispatch .fallback (fallbackRequests s))

end Sys2Proof.Machine
end

