-- ==== Sys2Proof/Machine/SendFamily.lean ====
section
/-!
DEFINITION. The meanings of the sending operations (43_motion_controller.md R160 to R170).
-/
namespace Sys2Proof.Machine

/-- MOTION, the source's moveMotion (R164). -/
def execMotion (fwd strafe turn : Int) (s : State) : Host.Outcome State Fault Refusal :=
  answered (request (moveMotionOp fwd strafe turn) s)

/-- HEIGHT, the source's setHeight (R166). -/
def execHeight (height : Int) (s : State) : Host.Outcome State Fault Refusal :=
  answered (request (setHeightOp height) s)

/-- STOP (R167). -/
def execStop (s : State) : Host.Outcome State Fault Refusal := answered (request stopOp s)

/-- TURN (R168). -/
def execTurn (s : State) : Host.Outcome State Fault Refusal := answered (request turnOp s)

/-- INIT0, step 0 of INIT (R170; log 15). -/
def execInit0 (s : State) : Host.Outcome State Fault Refusal := answered (request (initStepOp 0) s)

/-- INIT1, step 1 of INIT (R170; log 15). -/
def execInit1 (s : State) : Host.Outcome State Fault Refusal := answered (request (initStepOp 1) s)

/-- INIT2, step 2 of INIT (R170; log 15). -/
def execInit2 (s : State) : Host.Outcome State Fault Refusal := answered (request (initStepOp 2) s)

/-- INIT, the source's pwnDevice (R170). -/
def execInit (s : State) : Host.Outcome State Fault Refusal := answered (request initOp s)

/-- RAW, the source's sendRaw (R165); a Command over MAX_LEN is refused (R213 c). -/
def execRaw (description : Text) (ints : Command) (s : State) : Host.Outcome State Fault Refusal :=
  answered (requestCommand ints (sendRawOp description ints) s)

/-- EXECUTE, the send primitive (R160); a Command over MAX_LEN is refused (R213 c). -/
def execExecute (cmd : Command) (description : Text) (s : State) : Host.Outcome State Fault Refusal :=
  answered (requestCommand cmd (executeOp cmd description) s)

end Sys2Proof.Machine
end

