-- ==== Sys2Proof/Machine/SessionFamily.lean ====
section
/-!
DEFINITION. The meaning of RESET (70_reset_and_hazards.md R230).
-/
namespace Sys2Proof.Machine

/-- RESET: in any state, also with FATAL set; refused with a default height outside 1..127 (R230, D10; log 16). -/
def execReset (defaultHeight : Int) (delay : Nat) (s : State) : Host.Outcome State Fault Refusal :=
  if isHeight defaultHeight then .next (s.afterReset defaultHeight delay) else .refused .illegalDefaultHeight

end Sys2Proof.Machine
end

