-- ==== Sys2Proof/Machine/Dispatch.lean ====
section
/-!
DEFINITION. One arm per operation of spec/opcode_table.json, each a direct call of its meaning.
-/
namespace Sys2Proof.Machine

def exec (i : Instr) (s : State) : Host.Outcome State Fault Refusal :=
  match i with
  | .motion fwd strafe turn => Sys2Proof.Machine.execMotion fwd strafe turn s
  | .height h => Sys2Proof.Machine.execHeight h s
  | .stop => Sys2Proof.Machine.execStop s
  | .turn => Sys2Proof.Machine.execTurn s
  | .init0 => Sys2Proof.Machine.execInit0 s
  | .init1 => Sys2Proof.Machine.execInit1 s
  | .init2 => Sys2Proof.Machine.execInit2 s
  | .init => Sys2Proof.Machine.execInit s
  | .raw d ints => Sys2Proof.Machine.execRaw d ints s
  | .execute cmd d => Sys2Proof.Machine.execExecute cmd d s
  | .encode cmd => Sys2Proof.Machine.execEncode cmd s
  | .checksum bs => Sys2Proof.Machine.execChecksum bs s
  | .reset h d => Sys2Proof.Machine.execReset h d s
  | .classify msg => Sys2Proof.Machine.execClassify msg s
  | .exit => Sys2Proof.Machine.execExit s
  | .motionMessage msg => Sys2Proof.Machine.execMotionMessage msg s
  | .heightMessage msg => Sys2Proof.Machine.execHeightMessage msg s
  | .rawMessage msg => Sys2Proof.Machine.execRawMessage msg s
  | .fallback => Sys2Proof.Machine.execFallback s

end Sys2Proof.Machine
end

