-- ==== Sys2Proof/Machine/Step.lean ====
section
/-!
DEFINITION. One step: the next request from outside is decoded and executed; with nothing presented the block stays idle
(70_reset_and_hazards.md R236, 60_exceptions.md R223; log 2).
-/
namespace Sys2Proof.Machine

def step (s : State) : Host.Outcome State Fault Refusal :=
  match s.requests with
  | [] => .next s
  | .receiveFails :: rest => receiveFailure { s with requests := rest }
  | r :: rest =>
    match decode r with
    | .ok i => exec i { s with requests := rest }
    | .error e => .refused (.undecodable e)

/-- The Command of `nbits / 8` elements whose packed word is `w`, presented as the next request (log 2, log 3). -/
def State.withFetchWord (s : State) (nbits w : Nat) : State :=
  { s with requests := .word (bytesOfWord (nbits / 8) w) :: s.requests }

end Sys2Proof.Machine
end

