-- ==== Sys2Proof/Safety.lean ====
section
/-!
DEFINITION. The terms claims are stated in: when a request is accepted, what a valid Command's frame is, the state one
hand-over leaves, and the invariant of the machine (95_test_vectors.md section 3, items 3, 8 and 9).
-/
namespace Sys2Proof

/-- The Command an operation with a packed word stands for (42_command_model.md R141 to R146, R30). -/
def Instr.command : Instr → Option Command
  | .motion f s t => some [6, f, s, t]
  | .height h => some [4, 0, 7, h]
  | .stop => some [6, 0, 0, 0]
  | .turn => some [6, 0, 0, 80]
  | .init0 => some [16]
  | .init1 => some [7, 1]
  | .init2 => some [6, 0, 0, 0]
  | .raw _ ints => some ints
  | .execute cmd _ => some cmd
  | .encode cmd => some cmd
  | .init => none
  | .checksum _ => none
  | .reset _ _ => none
  | .classify _ => none
  | .exit => none
  | .motionMessage _ => none
  | .heightMessage _ => none
  | .rawMessage _ => none
  | .fallback => none

/-- The operations requested of the block: all but RESET and the front end's (00_scope.md R3, 60_exceptions.md R213). -/
def Instr.isRequest : Instr → Bool
  | .motion _ _ _ => true
  | .height _ => true
  | .stop => true
  | .turn => true
  | .init0 => true
  | .init1 => true
  | .init2 => true
  | .init => true
  | .raw _ _ => true
  | .execute _ _ => true
  | .encode _ => true
  | .checksum _ => true
  | .reset _ _ => false
  | .classify _ => false
  | .exit => false
  | .motionMessage _ => false
  | .heightMessage _ => false
  | .rawMessage _ => false
  | .fallback => false

/-- The operations that are a turn of the relay loop on a message (44_command_relay.md R180). -/
def Instr.isMessage : Instr → Bool
  | .exit => true
  | .motionMessage _ => true
  | .heightMessage _ => true
  | .rawMessage _ => true
  | .fallback => true
  | .motion _ _ _ => false
  | .height _ => false
  | .stop => false
  | .turn => false
  | .init0 => false
  | .init1 => false
  | .init2 => false
  | .init => false
  | .raw _ _ => false
  | .execute _ _ => false
  | .encode _ => false
  | .checksum _ => false
  | .reset _ _ => false
  | .classify _ => false

/-- The messages that make a request to the block: FALLBACK, and a message whose fields parse, for MOTION with the opcode
6 (44_command_relay.md R183 to R186). -/
def Instr.reachesBlock : Instr → Prop
  | .motionMessage msg => ∃ f0 f1 f2 f3 f4 fwd strafe turn, splitCommas msg = [f0, f1, f2, f3, f4] ∧
      parseInt f1 = some 6 ∧ parseInt f2 = some fwd ∧ parseInt f3 = some strafe ∧ parseInt f4 = some turn
  | .heightMessage msg => ∃ f0 f1 h, splitCommas msg = [f0, f1] ∧ parseInt f1 = some h
  | .rawMessage msg => ∃ (f0 : Text) (fs : List Text) (ints : Command), splitCommas msg = f0 :: fs ∧ fs ≠ [] ∧
      fs.map parseInt = ints.map some
  | .fallback => True
  | .exit => False
  | .motion _ _ _ => False
  | .height _ => False
  | .stop => False
  | .turn => False
  | .init0 => False
  | .init1 => False
  | .init2 => False
  | .init => False
  | .raw _ _ => False
  | .execute _ _ => False
  | .encode _ => False
  | .checksum _ => False
  | .reset _ _ => False
  | .classify _ => False

end Sys2Proof

namespace Sys2Proof.Machine

/-- The block accepts a request (43_motion_controller.md R171). -/
def Accepting (s : State) : Prop := s.fatal = false ∧ s.phase = .idle

/-- Every element is a SignedByte (41_frame_codec.md R112). -/
def Valid (cmd : Command) : Prop := ∀ v ∈ cmd, -128 ≤ v ∧ v ≤ 127

/-- The stuffed bytes of a Command under the build's policy (R113, R115). -/
def stuffedOf (cmd : Command) : List Byte := stuff Config.cobsTrailingPolicy (cmd.map pack8)

/-- The frame of a Command: stuffed bytes, checksum, `0x00` (R119, R120). -/
def frameOf (cmd : Command) : List Byte := stuffedOf cmd ++ [checksum (stuffedOf cmd), 0x00#8]

/-- The hex text of a Command's frame (R121). -/
def hexOf (cmd : Command) : Text := render (frameOf cmd)

/-- `s` with the codec's buffers holding the encoding of `cmd` (R22, R55). -/
def Encodes (s : State) (cmd : Command) : State :=
  { s with
    cmd := some cmd
    rawb := some (cmd.map pack8)
    stuffed := some (stuffedOf cmd)
    chk := some (checksum (stuffedOf cmd))
    frame := some (frameOf cmd)
    hex := some (hexOf cmd) }

/-- `s` after the frame of `cmd` was handed over and the delay has passed: the buffers, the two events, FATAL if the sink
answered fail, the answer used up; RESULT aside, nothing else (R160 to R163, R172). -/
def Sent (s : State) (cmd : Command) : State :=
  { Encodes s cmd with
    fatal := s.fatal || s.sinkAnswer == .fail
    txlog := s.txlog ++ [.tx (frameOf cmd) s.sinkAnswer, .gap]
    phase := .idle
    sinkInputs := s.sinkInputs.tail
    sinkDraws := if s.sinkInputs = [] then s.sinkDraws + 1 else s.sinkDraws }

/-- What the send of `cmd` from `s` returns (R160). -/
def sentResult (s : State) (cmd : Command) : OpResult :=
  if s.sinkAnswer = .ok then .ok (.hex (hexOf cmd)) else .err .transport

/-- `s` after an operation that ended in `RangeError` before anything was produced: RESULT, and the codec's buffers without a
value (R22, R201, R210). -/
def Rejected (s : State) (e : Err) : State :=
  { s with
    rawb := none
    stuffed := none
    chk := none
    frame := none
    hex := none
    result := some (.err e) }

/-- The relay's part of the state after a message of class `k` returned `r` (44_command_relay.md R180, R188). -/
def Relayed (s : State) (k : MsgKind) (r : OpResult) : State :=
  { s with
    relayKind := some k
    relayR := some r
    relay := if r = .err .transport then .terminated else s.relay }

/-- The log of a session with FATAL `fatal`: hand-overs of frames of valid Commands, each followed by its delay, all
accepted by the sink but for the last one when FATAL is set (R29, R162, R163). -/
def LogOk : List Event → Bool → Prop
  | [], fatal => fatal = false
  | .tx frame .ok :: .gap :: rest, fatal => (∃ cmd, Valid cmd ∧ frame = frameOf cmd) ∧ LogOk rest fatal
  | [.tx frame .fail, .gap], fatal => (∃ cmd, Valid cmd ∧ frame = frameOf cmd) ∧ fatal = true
  | _, _ => False

/-- The codec's buffers hold no value, or all hold the encoding of CMD, a valid Command (R22, R55 a). -/
def BuffersOk (s : State) : Prop :=
  (s.rawb = none ∧ s.stuffed = none ∧ s.chk = none ∧ s.frame = none ∧ s.hex = none) ∨
    ∃ cmd, Valid cmd ∧ s.cmd = some cmd ∧ s.rawb = some (cmd.map pack8) ∧ s.stuffed = some (stuffedOf cmd) ∧
      s.chk = some (checksum (stuffedOf cmd)) ∧ s.frame = some (frameOf cmd) ∧ s.hex = some (hexOf cmd)

/-- What holds of the machine whenever the host can look at it. -/
structure Inv (s : State) : Prop where
  /-- PHASE is IDLE (R11, R27). -/
  idle : s.phase = .idle
  /-- CUR_HEIGHT is in 1..127 (R23). -/
  height : 1 ≤ s.curHeight ∧ s.curHeight ≤ 127
  /-- CFG_DEFAULT_HEIGHT is in 1..127 (R26). -/
  config : 1 ≤ s.cfgDefaultHeight ∧ s.cfgDefaultHeight ≤ 127
  /-- All or nothing (R55). -/
  buffers : BuffersOk s
  /-- The log's discipline, and FATAL exactly when the last hand-over failed (R24, R162, R163). -/
  log : LogOk s.txlog s.fatal

end Sys2Proof.Machine
end

