-- ==== Sys2Proof/Certificates/Slice0/Obligations.lean ====
section
/-!
DEFINITION. The statements for the provers, taken from the numbered rules of spec/; see OBLIGATIONS.json for each one's
wording and citation.
-/

open Sys2Proof Sys2Proof.Machine

/-! ### CHECKSUM (40_checksum.md) -/

/-- An accepted CHECKSUM request answers `(sum mod 256 + 1) mod 256` in RESULT and changes nothing else. That the byte goes
to RESULT, and that the request is accepted like any other, is the model's choice (log 14). -/
def Obligations.ChecksumRequestReturnsSumPlusOne : Prop :=
  ∀ (s : State) (bs : List Byte), Accepting s →
    exec (.checksum bs) s =
      .next { s with result := some (.ok (.byte (BitVec.ofNat 8 (((bs.map BitVec.toNat).sum % 256 + 1) % 256)))) }

/-- CHECKSUM_LITERAL, with its exclusive or, equals CHECKSUM on every byte sequence: both are `(sum(bytes) + 1) mod 256`. -/
def Obligations.ChecksumLiteralEqualsChecksum : Prop :=
  ∀ bs : List Byte, checksumLiteral bs = checksum bs ∧
    (checksumLiteral bs).toNat = ((bs.map BitVec.toNat).sum + 1) % 256

/-- The arithmetic laws of the checksum: the sum of the unsigned byte values plus one, additive, independent of the order of the
bytes, and what an 8-bit accumulator that wraps, with a wrapping increment, computes. -/
def Obligations.ChecksumArithmeticLaws : Prop :=
  (∀ bs : List Byte, (checksum bs).toNat = ((bs.map BitVec.toNat).sum + 1) % 256) ∧
  (∀ a b : List Byte, (checksum (a ++ b)).toNat = ((checksum a).toNat + (b.map BitVec.toNat).sum) % 256) ∧
  (∀ a b : List Byte, a.Perm b → checksum a = checksum b) ∧
  (∀ bs : List Byte, checksum bs = bs.foldl (· + ·) 0#8 + 1#8)

/-- The checksum byte is `0x00` exactly when the sum is 255 modulo 256, and it is not stuffed: the frame then ends in the
stuffed bytes and two zero bytes; with the two Commands the rule gives as examples. -/
def Obligations.ChecksumZeroExactlyAtSum255 : Prop :=
  (∀ bs : List Byte, checksum bs = 0x00#8 ↔ (bs.map BitVec.toNat).sum % 256 = 255) ∧
  (∀ cmd : Command, ((stuffedOf cmd).map BitVec.toNat).sum % 256 = 255 →
    frameOf cmd = stuffedOf cmd ++ [0x00#8, 0x00#8]) ∧
  stuffedOf [-3] = [0x02, 0xfd] ∧ frameOf [-3] = [0x02, 0xfd, 0x00, 0x00] ∧
  stuffedOf [6, 127, 117, 0] = [0x04, 0x06, 0x7f, 0x75, 0x01] ∧
  frameOf [6, 127, 117, 0] = [0x04, 0x06, 0x7f, 0x75, 0x01, 0x00, 0x00]

/-! ### The frame codec (41_frame_codec.md, 30_encoding.md) -/

/-- Packing: two's complement of a SignedByte, with `sext_8` as its inverse; an integer outside the range is never packed,
and every operand occupies exactly one element of the raw buffer. -/
def Obligations.PackIsTwosComplement : Prop :=
  (∀ v : Int, -128 ≤ v → v ≤ 127 →
    ((pack8 v).toNat : Int) = v % 256 ∧ ((pack8 v).toNat : Int) = (if 0 ≤ v then v else v + 256) ∧
      sext8 (pack8 v) = v) ∧
  (pack8 0 = 0x00#8 ∧ pack8 127 = 0x7f#8 ∧ pack8 (-1) = 0xff#8 ∧ pack8 (-128) = 0x80#8 ∧ pack8 80 = 0x50#8 ∧
    pack8 16 = 0x10#8) ∧
  (∀ (p : TrailingPolicy) (cmd : Command), (∃ v ∈ cmd, v < -128 ∨ 127 < v) → ∃ e, codecWith p cmd = .error e) ∧
  (∀ (p : TrailingPolicy) (cmd : Command) (enc : Encoded), codecWith p cmd = .ok enc →
    enc.raw.length = cmd.length ∧ ∀ i : Nat, enc.raw[i]? = (cmd[i]?).map pack8)

/-- ENCODE succeeds exactly on the Commands of SignedBytes; on any other it answers `RangeError` with the lowest failing
index, that element and the constraint -128..127, and nothing else. -/
def Obligations.EncodeSucceedsExactlyOnSignedBytes : Prop :=
  ∀ (p : TrailingPolicy) (cmd : Command),
    (Valid cmd → ∃ enc, codecWith p cmd = .ok enc) ∧
    (¬ Valid cmd → ∃ i v, codecWith p cmd = .error (.range (.element i) v .signedByte) ∧ cmd[i]? = some v ∧
      (v < -128 ∨ 127 < v) ∧ ∀ j w, j < i → cmd[j]? = some w → -128 ≤ w ∧ w ≤ 127)

/-- No stuffed byte is zero; the stuffed bytes are one longer than the raw buffer, plus at most one byte per 254. -/
def Obligations.StuffedBytesZeroFreeAndBounded : Prop :=
  ∀ (p : TrailingPolicy) (raw : List Byte),
    (0x00#8 ∉ stuff p raw) ∧ stuff p raw ≠ [] ∧
    raw.length + 1 ≤ (stuff p raw).length ∧ (stuff p raw).length ≤ raw.length + 1 + raw.length / 254 ∧
    ((∀ seg ∈ segments raw, seg.length < 254) → (stuff p raw).length = raw.length + 1)

/-- The shapes of stuffed bytes: the first byte, zeros only, no zeros in at most 253 bytes, and the boundary at 254. -/
def Obligations.StuffedShapes : Prop :=
  (∀ (p : TrailingPolicy) (raw : List Byte),
    (stuff p raw).head? = some (BitVec.ofNat 8 (min (raw.takeWhile (· ≠ 0x00#8)).length 254 + 1))) ∧
  (∀ (p : TrailingPolicy) (z : Nat), stuff p (List.replicate z 0x00#8) = List.replicate (z + 1) 0x01#8) ∧
  (∀ (p : TrailingPolicy) (raw : List Byte), 0x00#8 ∉ raw → raw.length ≤ 253 →
    stuff p raw = BitVec.ofNat 8 (raw.length + 1) :: raw) ∧
  (∀ raw : List Byte, 0x00#8 ∉ raw → raw.length = 254 →
    stuff .omitBlock raw = 0xff#8 :: raw ∧ stuff .emitBlock raw = 0xff#8 :: raw ++ [0x01#8] ∧
    ∀ p : TrailingPolicy, stuff p (raw ++ [0x00#8]) = 0xff#8 :: raw ++ [0x01#8, 0x01#8] ∧
      ∀ b : Byte, b ≠ 0x00#8 → stuff p (raw ++ [b]) = 0xff#8 :: raw ++ [0x02#8, b])

/-- The stuffing is reversible: the standard decoder recovers the raw bytes, under both trailing policies. -/
def Obligations.StuffingIsReversible : Prop :=
  ∀ (p : TrailingPolicy) (raw : List Byte), unstuff (stuff p raw) = some raw

/-- The byte-at-a-time stuffing and the stuffing by segments are the same function; the segments are the pieces between the
zero bytes; and with all segments shorter than 254 the result is each segment behind its length plus one. -/
def Obligations.StuffingBySegmentsAgrees : Prop :=
  ∀ (p : TrailingPolicy) (raw : List Byte),
    stuff p raw = stuffBySegments p raw ∧
    List.intercalate [0x00#8] (segments raw) = raw ∧ (∀ seg ∈ segments raw, 0x00#8 ∉ seg) ∧
    (segments raw).length = raw.count 0x00#8 + 1 ∧
    ((∀ seg ∈ segments raw, seg.length < 254) →
      stuff p raw = (segments raw).flatMap fun seg => BitVec.ofNat 8 (seg.length + 1) :: seg)

/-- Two different valid Commands never give the same frame, nor the same hex text. -/
def Obligations.EncodingIsInjective : Prop :=
  ∀ a b : Command, Valid a → Valid b → (frameOf a = frameOf b ∨ hexOf a = hexOf b) → a = b

/-- The shape of a frame: it ends in the checksum of all bytes before it and `0x00`, no earlier byte is zero, and its hex text
has two characters per byte, ends in "00" and has `2n + 6` characters for a Command of `n <= 253` elements. -/
def Obligations.FrameShape : Prop :=
  ∀ cmd : Command,
    frameOf cmd = stuffedOf cmd ++ [checksum (stuffedOf cmd), 0x00#8] ∧ (0x00#8 ∉ stuffedOf cmd) ∧
    (hexOf cmd).length = 2 * (stuffedOf cmd).length + 4 ∧ 6 ≤ (hexOf cmd).length ∧ ['0', '0'] <:+ hexOf cmd ∧
    (cmd.length ≤ 253 → (hexOf cmd).length = 2 * cmd.length + 6)

/-- The hex text of a byte sequence has only the sixteen lowercase characters, two per byte, and un-hexing gives the bytes
back; so HEX of a Command denotes exactly its FRAME. -/
def Obligations.UnhexRecoversFrame : Prop :=
  (∀ bs : List Byte, (render bs).length = 2 * bs.length ∧ unhex (render bs) = some bs ∧ ∀ c ∈ render bs,
    c ∈ ['0', '1', '2', '3', '4', '5', '6', '7', '8', '9', 'a', 'b', 'c', 'd', 'e', 'f']) ∧
  (∀ cmd : Command, unhex (hexOf cmd) = some (frameOf cmd))

/-- An accepted ENCODE of a valid Command returns its hex text and fills CMD, RAWB, STUFFED, CHK, FRAME and HEX consistently;
no other state changes. -/
def Obligations.EncodeFillsBuffers : Prop :=
  ∀ (s : State) (cmd : Command), Accepting s → s.fits cmd = true → Valid cmd →
    exec (.encode cmd) s = .next { Encodes s cmd with result := some (.ok (.hex (hexOf cmd))) }

/-- An accepted ENCODE of a Command that is not valid returns `RangeError`; CMD is loaded, the buffers hold no value (log 9),
no other state changes. -/
def Obligations.EncodeRejectsOutOfRange : Prop :=
  ∀ (s : State) (cmd : Command), Accepting s → s.fits cmd = true → ¬ Valid cmd →
    ∃ i v, cmd[i]? = some v ∧ (v < -128 ∨ 127 < v) ∧
      exec (.encode cmd) s = .next { Rejected s (.range (.element i) v .signedByte) with cmd := some cmd }

/-- The codec reads no state: two accepting states that can hold the Command get the same result and the same buffers. -/
def Obligations.EncodeReadsNoState : Prop :=
  ∀ (s s' t t' : State) (cmd : Command), exec (.encode cmd) s = .next t → exec (.encode cmd) s' = .next t' →
    t.result = t'.result ∧ t.cmd = t'.cmd ∧ t.rawb = t'.rawb ∧ t.stuffed = t'.stuffed ∧ t.chk = t'.chk ∧
      t.frame = t'.frame ∧ t.hex = t'.hex

/-! ### The sending operations (42_command_model.md, 43_motion_controller.md) -/

/-- MOTION with operands in range sends `[6, fwd, strafe, turn]`. -/
def Obligations.MotionSendsItsCommand : Prop :=
  ∀ (s : State) (fwd strafe turn : Int), Accepting s → -128 ≤ fwd → fwd ≤ 127 → -128 ≤ strafe → strafe ≤ 127 →
    -128 ≤ turn → turn ≤ 127 →
    exec (.motion fwd strafe turn) s =
      .next { Sent s [6, fwd, strafe, turn] with result := some (sentResult s [6, fwd, strafe, turn]) }

/-- MOTION with an operand out of range returns `RangeError` for the first such operand (D9); nothing is built or sent, and the
codec's buffers hold no value (log 9). -/
def Obligations.MotionRejectsOutOfRange : Prop :=
  ∀ (s : State) (fwd strafe turn : Int), Accepting s →
    (fwd < -128 ∨ 127 < fwd →
      exec (.motion fwd strafe turn) s = .next (Rejected s (.range .fwd fwd .signedByte))) ∧
    (-128 ≤ fwd → fwd ≤ 127 → strafe < -128 ∨ 127 < strafe →
      exec (.motion fwd strafe turn) s = .next (Rejected s (.range .strafe strafe .signedByte))) ∧
    (-128 ≤ fwd → fwd ≤ 127 → -128 ≤ strafe → strafe ≤ 127 → turn < -128 ∨ 127 < turn →
      exec (.motion fwd strafe turn) s = .next (Rejected s (.range .turn turn .signedByte)))

/-- HEIGHT in 1..127 sends `[4, 0, 7, height]`, and CUR_HEIGHT takes the value only if the sink accepted the frame. -/
def Obligations.HeightSendsThenUpdates : Prop :=
  ∀ (s : State) (height : Int), Accepting s → 1 ≤ height → height ≤ 127 →
    exec (.height height) s =
      .next { Sent s [4, 0, 7, height] with
                result := some (sentResult s [4, 0, 7, height])
                curHeight := if s.sinkAnswer = .ok then height else s.curHeight }

/-- HEIGHT outside 1..127 returns `RangeError`; nothing is sent, CUR_HEIGHT keeps its value, and the codec's buffers hold no
value (log 9). -/
def Obligations.HeightRejectsOutOfRange : Prop :=
  ∀ (s : State) (height : Int), Accepting s → height < 1 ∨ 127 < height →
    exec (.height height) s = .next (Rejected s (.range .height height .height))

/-- STOP sends `[6,0,0,0]` and TURN sends `[6,0,0,80]`, the same as MOTION with those operands. -/
def Obligations.StopAndTurnSendFixedCommands : Prop :=
  ∀ s : State, Accepting s →
    exec .stop s = .next { Sent s [6, 0, 0, 0] with result := some (sentResult s [6, 0, 0, 0]) } ∧
    exec .turn s = .next { Sent s [6, 0, 0, 80] with result := some (sentResult s [6, 0, 0, 80]) } ∧
    exec .stop s = exec (.motion 0 0 0) s ∧ exec .turn s = exec (.motion 0 0 80) s

/-- RAW and EXECUTE send any valid Command that fits, whatever the description; CUR_HEIGHT is not touched. -/
def Obligations.RawAndExecuteSendVerbatim : Prop :=
  ∀ (s : State) (d : Text) (cmd : Command), Accepting s → s.fits cmd = true → Valid cmd →
    exec (.raw d cmd) s = .next { Sent s cmd with result := some (sentResult s cmd) } ∧
    exec (.execute cmd d) s = .next { Sent s cmd with result := some (sentResult s cmd) }

/-- RAW and EXECUTE of a Command that is not valid return `RangeError` against the lowest failing element (D9); nothing is
sent, CMD is loaded, and the codec's buffers hold no value (log 9). -/
def Obligations.RawAndExecuteRejectOutOfRange : Prop :=
  ∀ (s : State) (d : Text) (cmd : Command), Accepting s → s.fits cmd = true → ¬ Valid cmd →
    ∃ i v, cmd[i]? = some v ∧ (v < -128 ∨ 127 < v) ∧ Valid (cmd.take i) ∧
      exec (.raw d cmd) s = .next { Rejected s (.range (.element i) v .signedByte) with cmd := some cmd } ∧
      exec (.execute cmd d) s = .next { Rejected s (.range (.element i) v .signedByte) with cmd := some cmd }

/-- INIT with three accepted hand-overs sends `[16]`, `[7,1]`, `[6,0,0,0]` in this order and leaves SEQ_IDX at 3. -/
def Obligations.InitSendsThreeInOrder : Prop :=
  ∀ s : State, Accepting s → s.sinkAnswer = .ok → (Sent s [16]).sinkAnswer = .ok →
    (Sent (Sent s [16]) [7, 1]).sinkAnswer = .ok →
    exec .init s =
      .next { Sent (Sent (Sent s [16]) [7, 1]) [6, 0, 0, 0] with
                seqIdx := some 3
                result := some (.ok .done) }

/-- INIT stops at the first failed hand-over, with SEQ_IDX at its index; what was sent stays sent. -/
def Obligations.InitAbortsAtFirstFailure : Prop :=
  ∀ s : State, Accepting s →
    (s.sinkAnswer = .fail →
      exec .init s = .next { Sent s [16] with seqIdx := some 0, result := some (.err .transport) }) ∧
    (s.sinkAnswer = .ok → (Sent s [16]).sinkAnswer = .fail →
      exec .init s =
        .next { Sent (Sent s [16]) [7, 1] with seqIdx := some 1, result := some (.err .transport) }) ∧
    (s.sinkAnswer = .ok → (Sent s [16]).sinkAnswer = .ok → (Sent (Sent s [16]) [7, 1]).sinkAnswer = .fail →
      exec .init s =
        .next { Sent (Sent (Sent s [16]) [7, 1]) [6, 0, 0, 0] with
                  seqIdx := some 2
                  result := some (.err .transport) })

/-- INIT0, INIT1 and INIT2 each send their command of INITROM; SEQ_IDX is their index, one more if the sink accepted. That a
step can be requested alone, and where it leaves SEQ_IDX, is the model's choice (log 15). -/
def Obligations.InitStepsSendTheirCommand : Prop :=
  ∀ s : State, Accepting s →
    exec .init0 s =
      .next { Sent s [16] with
                seqIdx := some (if s.sinkAnswer = .ok then 1 else 0)
                result := some (sentResult s [16]) } ∧
    exec .init1 s =
      .next { Sent s [7, 1] with
                seqIdx := some (if s.sinkAnswer = .ok then 2 else 1)
                result := some (sentResult s [7, 1]) } ∧
    exec .init2 s =
      .next { Sent s [6, 0, 0, 0] with
                seqIdx := some (if s.sinkAnswer = .ok then 3 else 2)
                result := some (sentResult s [6, 0, 0, 0]) }

/-- The frames of the typed kinds: a height frame is `02 04 03 07 hh cc 00` with `cc = 17 + height`; a motion frame has one of
eight shapes, by which operands are zero. -/
def Obligations.TypedFrameShapes : Prop :=
  (∀ h : Int, 1 ≤ h → h ≤ 127 →
    frameOf [4, 0, 7, h] = [0x02, 0x04, 0x03, 0x07, pack8 h, BitVec.ofInt 8 (17 + h), 0x00] ∧
      ((pack8 h).toNat : Int) = h ∧ 18 ≤ 17 + h ∧ 17 + h ≤ 144) ∧
  (∀ f s t : Int, -128 ≤ f → f ≤ 127 → -128 ≤ s → s ≤ 127 → -128 ≤ t → t ≤ 127 →
    frameOf [6, f, s, t] = stuffedOf [6, f, s, t] ++ [checksum (stuffedOf [6, f, s, t]), 0x00] ∧
    stuffedOf [6, f, s, t] =
      (if f ≠ 0 ∧ s ≠ 0 ∧ t ≠ 0 then [0x05, 0x06, pack8 f, pack8 s, pack8 t]
       else if f ≠ 0 ∧ s ≠ 0 then [0x04, 0x06, pack8 f, pack8 s, 0x01]
       else if f ≠ 0 ∧ t ≠ 0 then [0x03, 0x06, pack8 f, 0x02, pack8 t]
       else if s ≠ 0 ∧ t ≠ 0 then [0x02, 0x06, 0x03, pack8 s, pack8 t]
       else if f ≠ 0 then [0x03, 0x06, pack8 f, 0x01, 0x01]
       else if s ≠ 0 then [0x02, 0x06, 0x02, pack8 s, 0x01]
       else if t ≠ 0 then [0x02, 0x06, 0x01, 0x02, pack8 t]
       else [0x02, 0x06, 0x01, 0x01, 0x01]))

/-- A Command a typed serializer returns is valid, so ENCODE of it succeeds; a range violation of a typed operation names an
operand, never an element index. -/
def Obligations.TypedKindsNeverFailInCodec : Prop :=
  (∀ f s t cmd, buildMotion f s t = .ok cmd → Valid cmd ∧ ∃ enc, codec cmd = .ok enc) ∧
  (∀ h cmd, buildHeight h = .ok cmd → Valid cmd ∧ ∃ enc, codec cmd = .ok enc) ∧
  (∃ enc, codec buildStop = .ok enc) ∧ (∃ enc, codec buildTurn = .ok enc) ∧
  (∀ f s t e, buildMotion f s t = .error e → ∃ x v, (x = .fwd ∨ x = .strafe ∨ x = .turn) ∧
    e = .range x v .signedByte) ∧
  (∀ h e, buildHeight h = .error e → e = .range .height h .height)

/-- A raw height Command sends the same frame as HEIGHT and leaves CUR_HEIGHT alone. -/
def Obligations.RawHeightDoesNotUpdateHeight : Prop :=
  ∀ (s t u : State) (d : Text) (h : Int), Accepting s → s.fits [4, 0, 7, h] = true → 1 ≤ h → h ≤ 127 →
    s.sinkAnswer = .ok → exec (.raw d [4, 0, 7, h]) s = .next t → exec (.height h) s = .next u →
    t.txlog = u.txlog ∧ t.frame = u.frame ∧ t.curHeight = s.curHeight ∧ u.curHeight = h

/-! ### Errors and refusals (60_exceptions.md) -/

/-- While FATAL is set or PHASE is not IDLE, every request to the block is refused, also the one a message makes whose fields
parse, or a FALLBACK. -/
def Obligations.NotAcceptingRefusesRequests : Prop :=
  ∀ (s : State) (i : Instr), (i.isRequest = true ∨ (i.reachesBlock ∧ s.relay = .running)) →
    (s.fatal = true ∨ s.phase ≠ .idle) →
    ∃ r, exec i s = .refused r ∧ (r = .sessionFatal ∨ r = .busy ∨ r = .commandTooLong)

/-- A Command longer than MAX_LEN is refused, by RAW, EXECUTE, ENCODE and a RAW message; that this is looked at before FATAL and
PHASE is the model's choice (log 8). -/
def Obligations.TooLongCommandRefused : Prop :=
  ∀ (s : State) (d : Text) (cmd : Command) (m : Nat), s.maxLen = some m → m < cmd.length →
    exec (.raw d cmd) s = .refused .commandTooLong ∧ exec (.execute cmd d) s = .refused .commandTooLong ∧
    exec (.encode cmd) s = .refused .commandTooLong ∧
    (∀ msg f0 fs, s.relay = .running → splitCommas msg = f0 :: fs → fs.map parseInt = cmd.map some →
      exec (.rawMessage msg) s = .refused .commandTooLong)

/-- An operation of the block that ends in `RangeError` leaves no trace but RESULT, the codec's buffers without a value and,
for a raw Command, CMD (log 9). -/
def Obligations.RangeErrorLeavesSessionAlone : Prop :=
  ∀ (s t : State) (i : Instr) (x : Field) (v : Int) (c : Constraint), i.isRequest = true →
    exec i s = .next t → t.result = some (.err (.range x v c)) →
    t.curHeight = s.curHeight ∧ t.fatal = s.fatal ∧ t.txlog = s.txlog ∧ t.phase = .idle ∧ t.seqIdx = s.seqIdx ∧
      t.sinkInputs = s.sinkInputs ∧ t.sinkDraws = s.sinkDraws ∧ t.rawb = none ∧ t.stuffed = none ∧ t.chk = none ∧
      t.frame = none ∧ t.hex = none

/-- `EncodingError` is returned by no operation, and the block never returns a `ParseError`. That a `ParseError` of the front
end never reaches RESULT is the model's choice (log 13). -/
def Obligations.EncodingErrorNeverReturned : Prop :=
  ∀ (s t : State) (i : Instr), exec i s = .next t →
    (t.result = some (.err .encoding) → s.result = some (.err .encoding)) ∧
    (t.relayR = some (.err .encoding) → s.relayR = some (.err .encoding)) ∧
    (∀ p, t.result = some (.err (.parse p)) → s.result = some (.err (.parse p)))

/-- CUR_HEIGHT changes only in a HEIGHT (or a HEIGHT message) whose send returned Ok, to its operand, and in RESET, to the
configured height. -/
def Obligations.HeightChangesOnlyOnSuccess : Prop :=
  ∀ (s t : State) (i : Instr), exec i s = .next t →
    t.curHeight = s.curHeight ∨
    (∃ h d, i = .reset h d ∧ t.curHeight = h) ∨
    (∃ hex, t.result = some (.ok (.hex hex)) ∧ 1 ≤ t.curHeight ∧ t.curHeight ≤ 127 ∧
      (i = .height t.curHeight ∨ ∃ msg, i = .heightMessage msg ∧ heightOperand msg = .ok t.curHeight))

/-- FATAL is sticky: only RESET clears it; and an operation that sets it recorded a failed hand-over and returned
`TransportError`. -/
def Obligations.FatalOnlyClearedByReset : Prop :=
  ∀ (s t : State) (i : Instr), exec i s = .next t →
    (s.fatal = true → t.fatal = false → ∃ h d, i = .reset h d) ∧
    (s.fatal = false → t.fatal = true → t.result = some (.err .transport) ∧
      ∃ before frame, t.txlog = before ++ [.tx frame .fail, .gap])

/-- TXLOG only grows, but for RESET, which empties it. -/
def Obligations.LogOnlyGrows : Prop :=
  ∀ (s t : State) (i : Instr), exec i s = .next t → s.txlog <+: t.txlog ∨ (t.txlog = [] ∧ ∃ h d, i = .reset h d)

/-- In a log that is in order, between two hand-overs there is a delay, and no hand-over follows a failed one. -/
def Obligations.LogSpacesHandOvers : Prop :=
  ∀ (log : List Event) (fatal : Bool) (i j : Nat) (f g : List Byte) (a b : SinkAnswer), LogOk log fatal → i < j →
    log[i]? = some (.tx f a) → log[j]? = some (.tx g b) → a = .ok ∧ ∃ k, i < k ∧ k < j ∧ log[k]? = some .gap

/-- The invariant of the machine is kept by every step, from every state that has it. -/
def Obligations.StepKeepsInvariant : Prop :=
  ∀ s t : State, Inv s → step s = .next t → Inv t

/-- The invariant holds after reset. The configured height is the model's choice (log 6). -/
def Obligations.ResetHasInvariant : Prop :=
  Inv State.reset

/-! ### RESET (70_reset_and_hazards.md) -/

/-- RESET with a default height in 1..127, in any state, starts a session; with any other it is refused; and only RESET takes
the block out of a session with FATAL set. -/
def Obligations.ResetStartsSession : Prop :=
  (∀ (s : State) (h : Int) (d : Nat), 1 ≤ h → h ≤ 127 →
    ∃ t, exec (.reset h d) s = .next t ∧ t.cfgDefaultHeight = h ∧ t.cfgDelay = d ∧ t.curHeight = h ∧ t.fatal = false ∧
      t.phase = .idle ∧ t.txlog = [] ∧ t.cmd = none ∧ t.rawb = none ∧ t.stuffed = none ∧ t.chk = none ∧
      t.frame = none ∧ t.hex = none ∧ t.seqIdx = none ∧ t.result = none) ∧
  (∀ (s : State) (h : Int) (d : Nat), h < 1 ∨ 127 < h → exec (.reset h d) s = .refused .illegalDefaultHeight) ∧
  (∀ (s t : State) (i : Instr), s.fatal = true → exec i s = .next t → t.fatal = false → ∃ h d, i = .reset h d)

/-- RESET starts the relay anew and leaves MAX_LEN and the inputs still to come alone (log 8, log 16). -/
def Obligations.ResetLeavesInputsAlone : Prop :=
  ∀ (s t : State) (h : Int) (d : Nat), exec (.reset h d) s = .next t →
    t.relay = .running ∧ t.relayKind = none ∧ t.relayR = none ∧ t.maxLen = s.maxLen ∧ t.requests = s.requests ∧
      t.sinkInputs = s.sinkInputs ∧ t.sinkDraws = s.sinkDraws

/-! ### The text front end (44_command_relay.md) -/

/-- CLASSIFY takes the first keyword in the order exit, motion, height, raw that occurs anywhere in the message, whatever the
case of its letters, else fallback. Lowercasing takes each of the 26 capitals to its small letter and leaves every other
character alone (log 18). That a requested CLASSIFY puts its class into the relay's kind, in any state, is the model's
choice (log 24). -/
def Obligations.ClassifyTakesFirstKeyword : Prop :=
  (∀ (s : State) (msg : Text), ∃ k,
    exec (.classify msg) s = .next { s with relayKind := some k } ∧
    k = (if "exit".toList <:+: lowercase msg then MsgKind.exit
         else if "motion".toList <:+: lowercase msg then .motion
         else if "height".toList <:+: lowercase msg then .height
         else if "raw".toList <:+: lowercase msg then .raw
         else .fallback)) ∧
  (∀ a b : Text, lowercase (a ++ b) = lowercase a ++ lowercase b) ∧
  (∀ p ∈ List.zip "ABCDEFGHIJKLMNOPQRSTUVWXYZ".toList "abcdefghijklmnopqrstuvwxyz".toList,
    lowercase [p.1] = [p.2]) ∧
  (∀ c : Char, c ∉ "ABCDEFGHIJKLMNOPQRSTUVWXYZ".toList → lowercase [c] = [c])

/-- EXIT ends the relay; nothing reaches the block, whose RESULT keeps its value (log 13). -/
def Obligations.ExitEndsRelayOnly : Prop :=
  ∀ s : State, s.relay = .running → exec .exit s =
    .next { s with relay := .terminated, relayKind := some .exit, relayR := some (.ok .done) }

/-- A MOTION message of five fields whose last four are integers, the first of them 6 and the others in range, sends the motion
Command. -/
def Obligations.MotionMessageSends : Prop :=
  ∀ (s : State) (msg f0 f1 f2 f3 f4 : Text) (fwd strafe turn : Int), s.relay = .running → Accepting s →
    splitCommas msg = [f0, f1, f2, f3, f4] → parseInt f1 = some 6 → parseInt f2 = some fwd →
    parseInt f3 = some strafe → parseInt f4 = some turn → -128 ≤ fwd → fwd ≤ 127 → -128 ≤ strafe → strafe ≤ 127 →
    -128 ≤ turn → turn ≤ 127 →
    exec (.motionMessage msg) s =
      .next (Relayed { Sent s [6, fwd, strafe, turn] with result := some (sentResult s [6, fwd, strafe, turn]) }
        .motion (sentResult s [6, fwd, strafe, turn]))

/-- A MOTION message with another number of fields, or a field that is no integer, gets a `ParseError`; one whose second field
is another integer than 6 gets a `RangeError` (D15). Nothing reaches the block, and the relay stays `Running`. That RESULT
and the codec's buffers keep their values then is the model's choice (log 13, log 9). -/
def Obligations.MotionMessageErrors : Prop :=
  ∀ (s : State) (msg : Text), s.relay = .running →
    ((splitCommas msg).length ≠ 5 →
      exec (.motionMessage msg) s = .next (Relayed s .motion (.err (.parse (.exactly 5))))) ∧
    (∀ i t, (splitCommas msg).length = 5 → 1 ≤ i → (splitCommas msg)[i]? = some t → parseInt t = none →
      (∀ j u, 1 ≤ j → j < i → (splitCommas msg)[j]? = some u → parseInt u ≠ none) →
      exec (.motionMessage msg) s = .next (Relayed s .motion (.err (.parse (.notInteger i))))) ∧
    (∀ f0 f1 f2 f3 f4 op a b c, splitCommas msg = [f0, f1, f2, f3, f4] → parseInt f1 = some op →
      parseInt f2 = some a → parseInt f3 = some b → parseInt f4 = some c → op ≠ 6 →
      exec (.motionMessage msg) s = .next (Relayed s .motion (.err (.range .opcode op .opcodeSix))))

/-- A HEIGHT message of two fields, the second an integer in 1..127, sends the height Command and updates CUR_HEIGHT if the sink
accepted; any other number of fields, or no integer, is a `ParseError`, which leaves RESULT as it was (the model's choice,
log 13). -/
def Obligations.HeightMessageSends : Prop :=
  ∀ (s : State) (msg : Text), s.relay = .running →
    (∀ f0 f1 h, Accepting s → splitCommas msg = [f0, f1] → parseInt f1 = some h → 1 ≤ h → h ≤ 127 →
      exec (.heightMessage msg) s =
        .next (Relayed { Sent s [4, 0, 7, h] with
                           result := some (sentResult s [4, 0, 7, h])
                           curHeight := if s.sinkAnswer = .ok then h else s.curHeight }
          .height (sentResult s [4, 0, 7, h]))) ∧
    ((splitCommas msg).length ≠ 2 →
      exec (.heightMessage msg) s = .next (Relayed s .height (.err (.parse (.exactly 2))))) ∧
    (∀ f0 f1, splitCommas msg = [f0, f1] → parseInt f1 = none →
      exec (.heightMessage msg) s = .next (Relayed s .height (.err (.parse (.notInteger 1)))))

/-- A RAW message sends the integers of its fields after the first; fewer than two fields (D16), or a field that is no integer,
is a `ParseError` naming the first such field, which leaves RESULT as it was (the model's choice, log 13). -/
def Obligations.RawMessageSends : Prop :=
  ∀ (s : State) (msg : Text), s.relay = .running →
    (∀ f0 fs ints, Accepting s → s.fits ints = true → splitCommas msg = f0 :: fs → fs ≠ [] →
      fs.map parseInt = ints.map some → Valid ints →
      exec (.rawMessage msg) s =
        .next (Relayed { Sent s ints with result := some (sentResult s ints) } .raw (sentResult s ints))) ∧
    ((splitCommas msg).length < 2 →
      exec (.rawMessage msg) s = .next (Relayed s .raw (.err (.parse (.atLeast 2))))) ∧
    (∀ i t, 1 ≤ i → (splitCommas msg)[i]? = some t → parseInt t = none →
      (∀ j u, 1 ≤ j → j < i → (splitCommas msg)[j]? = some u → parseInt u ≠ none) →
      exec (.rawMessage msg) s = .next (Relayed s .raw (.err (.parse (.notInteger i)))))

/-- A message whose operands parse but are out of range gets the block's `RangeError`, for the first failing operand or element
(D9, log 21): nothing is sent, and the relay stays `Running`. That the codec's buffers hold no value then, and that CMD is
loaded for a RAW message only, is the model's choice (log 9). -/
def Obligations.MessageOutOfRangeRejected : Prop :=
  ∀ (s : State) (msg : Text), s.relay = .running → Accepting s →
    (∀ f0 f1 f2 f3 f4 fwd strafe turn, splitCommas msg = [f0, f1, f2, f3, f4] → parseInt f1 = some 6 →
      parseInt f2 = some fwd → parseInt f3 = some strafe → parseInt f4 = some turn →
      (fwd < -128 ∨ 127 < fwd → exec (.motionMessage msg) s =
        .next (Relayed (Rejected s (.range .fwd fwd .signedByte)) .motion (.err (.range .fwd fwd .signedByte)))) ∧
      (-128 ≤ fwd → fwd ≤ 127 → strafe < -128 ∨ 127 < strafe → exec (.motionMessage msg) s =
        .next (Relayed (Rejected s (.range .strafe strafe .signedByte)) .motion
          (.err (.range .strafe strafe .signedByte)))) ∧
      (-128 ≤ fwd → fwd ≤ 127 → -128 ≤ strafe → strafe ≤ 127 → turn < -128 ∨ 127 < turn →
        exec (.motionMessage msg) s =
          .next (Relayed (Rejected s (.range .turn turn .signedByte)) .motion
            (.err (.range .turn turn .signedByte))))) ∧
    (∀ f0 f1 h, splitCommas msg = [f0, f1] → parseInt f1 = some h → h < 1 ∨ 127 < h →
      exec (.heightMessage msg) s =
        .next (Relayed (Rejected s (.range .height h .height)) .height (.err (.range .height h .height)))) ∧
    (∀ f0 fs ints i v, splitCommas msg = f0 :: fs → fs.map parseInt = ints.map some → s.fits ints = true →
      ints[i]? = some v → v < -128 ∨ 127 < v → Valid (ints.take i) →
      exec (.rawMessage msg) s =
        .next (Relayed { Rejected s (.range (.element i) v .signedByte) with cmd := some ints } .raw
          (.err (.range (.element i) v .signedByte))))

/-- FALLBACK sends TURN and then STOP; if the TURN fails, STOP is not attempted and the relay ends. -/
def Obligations.FallbackTurnsThenStops : Prop :=
  ∀ s : State, s.relay = .running → Accepting s →
    (s.sinkAnswer = .ok → exec .fallback s =
      .next (Relayed { Sent (Sent s [6, 0, 0, 80]) [6, 0, 0, 0] with
                         result := some (sentResult (Sent s [6, 0, 0, 80]) [6, 0, 0, 0]) }
        .fallback (sentResult (Sent s [6, 0, 0, 80]) [6, 0, 0, 0]))) ∧
    (s.sinkAnswer = .fail → exec .fallback s =
      .next (Relayed { Sent s [6, 0, 0, 80] with result := some (.err .transport) } .fallback (.err .transport)))

/-- After a message the relay is `Running` unless it was EXIT or its outcome is `TransportError`; a `RangeError` or a `ParseError`
keeps the session. That a message is refused when the relay has ended is the model's choice (log 16). -/
def Obligations.RelayRunsOnAfterErrors : Prop :=
  (∀ (s t : State) (i : Instr), i.isMessage = true → exec i s = .next t →
    s.relay = .running ∧ ∃ r, t.relayR = some r ∧
      (t.relay = .terminated ↔ (i = .exit ∨ r = .err .transport))) ∧
  (∀ (s : State) (i : Instr), i.isMessage = true → s.relay = .terminated → exec i s = .refused .relayTerminated)

/-- PARSE_INT gives a numeral its value, with or without a leading `-`, and fails on a text with no digit; `split` gives one
field more than there are commas, and joining the fields with commas gives the message back. -/
def Obligations.ParsingPrimitives : Prop :=
  (∀ n : Nat, parseInt (Nat.toDigits 10 n) = some (n : Int) ∧ parseInt ('-' :: Nat.toDigits 10 n) = some (-(n : Int))) ∧
  (∀ t : Text, (∀ c ∈ t, ¬ ('0' ≤ c ∧ c ≤ '9')) → parseInt t = none) ∧
  (∀ t : Text, (splitCommas t).length = t.count ',' + 1 ∧ List.intercalate [','] (splitCommas t) = t ∧
    ∀ f ∈ splitCommas t, ',' ∉ f)

/-! ### Frames -/

/-- What no request to the block touches: the configuration, the relay and the inputs of the host; CUR_HEIGHT but for HEIGHT,
SEQ_IDX but for INIT and its steps. ENCODE and CHECKSUM send nothing and use no answer; that CHECKSUM writes RESULT, and
RESULT only, is the model's choice (log 14). -/
def Obligations.RequestFrame : Prop :=
  ∀ (s t : State) (i : Instr), i.isRequest = true → exec i s = .next t →
    t.cfgDefaultHeight = s.cfgDefaultHeight ∧ t.cfgDelay = s.cfgDelay ∧ t.maxLen = s.maxLen ∧ t.relay = s.relay ∧
    t.relayKind = s.relayKind ∧ t.relayR = s.relayR ∧ t.requests = s.requests ∧ t.phase = .idle ∧
    ((∀ h, i ≠ .height h) → t.curHeight = s.curHeight) ∧
    (i ∉ [Instr.init, .init0, .init1, .init2] → t.seqIdx = s.seqIdx) ∧
    (∀ cmd, i = .encode cmd → t.fatal = s.fatal ∧ t.txlog = s.txlog ∧ t.sinkInputs = s.sinkInputs ∧
      t.sinkDraws = s.sinkDraws) ∧
    (∀ bs, i = .checksum bs → t = { s with result := t.result })

/-- What a message or a CLASSIFY leaves alone: the configuration and the host's inputs always; SEQ_IDX; CUR_HEIGHT but for a
HEIGHT message; and all of the block when the outcome is a `ParseError`, for EXIT and for CLASSIFY. That RESULT keeps its
value then, and that CLASSIFY writes the relay's kind, is the model's choice (log 13, log 24). -/
def Obligations.FrontEndFrame : Prop :=
  ∀ (s t : State) (i : Instr), i.isMessage = true ∨ (∃ msg, i = .classify msg) → exec i s = .next t →
    t.cfgDefaultHeight = s.cfgDefaultHeight ∧ t.cfgDelay = s.cfgDelay ∧ t.maxLen = s.maxLen ∧
    t.requests = s.requests ∧ t.seqIdx = s.seqIdx ∧
    ((∀ msg, i ≠ .heightMessage msg) → t.curHeight = s.curHeight) ∧
    ((i = .exit ∨ (∃ msg, i = .classify msg) ∨ (i.isMessage = true ∧ ∃ p, t.relayR = some (.err (.parse p)))) →
      t = { s with relay := t.relay, relayKind := t.relayKind, relayR := t.relayR })

/-! ### Steps and encodings -/

/-- A step runs the operation its next request decodes to, on the state without that request. -/
def Obligations.StepRunsDecodedRequest : Prop :=
  ∀ (s : State) (r : Request) (rest : List Request) (i : Instr), decode r = .ok i →
    step { s with requests := r :: rest } = exec i { s with requests := rest }

/-- With nothing presented the block stays as it is; a failing receive ends the relay and changes nothing of the block (log 17);
a request that is no operation, a message operation with a text of another class, is refused (log 25). -/
def Obligations.StepWithoutOperation : Prop :=
  (∀ s : State, s.requests = [] → step s = .next s) ∧
  (∀ (s : State) (rest : List Request), s.relay = .running →
    step { s with requests := .receiveFails :: rest } =
      .next { s with requests := rest, relay := .terminated, relayR := some (.err .transport) }) ∧
  (∀ (s : State) (i : Instr) (rest : List Request), i.wf = false →
    step { s with requests := .direct i :: rest } = .refused (.undecodable .notOfItsKind))

/-- Decoding what the encoder lays out gives the instruction back, for every well-formed instruction. -/
def Obligations.DecodeEncodeAgree : Prop :=
  ∀ i : Instr, i.wf = true → decode (encode i) = .ok i

/-- No bit of a packed Command is dropped: whatever operation a word decodes to, packing that operation's Command gives the
word back. -/
def Obligations.DecodedWordKeepsEveryBit : Prop :=
  ∀ bs : List Byte, ∃ cmd, (decodeWord bs).command = some cmd ∧ Valid cmd ∧ cmd.map pack8 = bs

/-- The words of the opcode table decode to their rows, with operands from the bits the table gives. The words of STOP and TURN
also match the rows of MOTION, RAW and, for STOP, INIT2: that the row with more fixed bits is taken, and STOP before INIT2,
is the model's choice, and so is the byte order of a packed word (log 3). -/
def Obligations.TableWordsDecode : Prop :=
  decodeTableWord 32 0x06000000 = some .stop ∧ decodeTableWord 32 0x06000050 = some .turn ∧
  decodeTableWord 32 0x067f80ff = some (.motion 127 (-128) (-1)) ∧ decodeTableWord 32 0x0400073c = some (.height 60) ∧
  decodeTableWord 8 0x10 = some .init0 ∧ decodeTableWord 16 0x0701 = some .init1 ∧
  decodeTableWord 32 0x04000700 = some (.raw [] [4, 0, 7, 0]) ∧ decodeTableWord 16 0x0702 = some (.raw [] [7, 2])

/-- The host's reads. Every space holds what its buffer, INITROM or TXLOG holds, and a buffer without a value is refused, in
every read of its space; a range inside a space gives its elements in order, a range of no element gives none, and a range
that leaves the space is refused at the first index outside. LEN and RESULT are read or refused likewise; CUR_HEIGHT is read
as it stands. -/
def Obligations.HostReadsRefuseWithoutValue : Prop :=
  ∀ s : State,
    (∀ c, s.cmd = some c → s.space .cmd = .ok (c.map .int) ∧ s.readLen = .ok c.length) ∧
    (∀ bs, s.rawb = some bs → s.space .rawb = .ok (bs.map .byte)) ∧
    (∀ bs, s.stuffed = some bs → s.space .stuffed = .ok (bs.map .byte)) ∧
    (∀ bs, s.frame = some bs → s.space .frame = .ok (bs.map .byte)) ∧
    (∀ cs, s.hex = some cs → s.space .hex = .ok (cs.map .char)) ∧
    s.space .initrom = .ok [.command [16], .command [7, 1], .command [6, 0, 0, 0]] ∧
    s.space .txlog = .ok (s.txlog.map .event) ∧
    (∀ sp es idx n, s.space sp = .ok es →
      (idx + n ≤ es.length → s.memRead sp idx n = .ok ((es.drop idx).take n)) ∧
      (n = 0 → s.memRead sp idx n = .ok []) ∧
      (0 < n → es.length < idx + n → ∃ k, idx ≤ k ∧ k < idx + n ∧ es.length ≤ k ∧
        (∀ j, idx ≤ j → j < k → j < es.length) ∧ s.memRead sp idx n = .error (.outOfRange sp k))) ∧
    (∀ idx n,
      (s.cmd = none → s.memRead .cmd idx n = .error (.noValue .cmd) ∧ s.readLen = .error (.noValue .len)) ∧
      (s.rawb = none → s.memRead .rawb idx n = .error (.noValue .rawb)) ∧
      (s.stuffed = none → s.memRead .stuffed idx n = .error (.noValue .stuffed)) ∧
      (s.frame = none → s.memRead .frame idx n = .error (.noValue .frame)) ∧
      (s.hex = none → s.memRead .hex idx n = .error (.noValue .hex))) ∧
    (s.result = none → s.readResult = .error (.noValue .result)) ∧
    (∀ r, s.result = some r → s.readResult = .ok r) ∧ s.readHeight = s.curHeight
end

