-- ==== Sys2Proof/Laws/Codec.lean ====
section
/-!
SUPPORT. What the codec's functions answer: packing, the range check, the stages, the checksum.
-/
namespace Sys2Proof

theorem isSignedByte_iff (v : Int) : isSignedByte v = true ↔ -128 ≤ v ∧ v ≤ 127 := by
  exact decide_eq_true_iff

theorem isHeight_iff (v : Int) : isHeight v = true ↔ 1 ≤ v ∧ v ≤ 127 := by
  exact decide_eq_true_iff

theorem pack8_toNat (v : Int) : ((pack8 v).toNat : Int) = v % 256 := by
  have h1 : 0 ≤ v % 256 := Int.emod_nonneg _ (by norm_num)
  have h2 : v % 256 < 256 := Int.emod_lt_of_pos _ (by norm_num)
  have h3 : (v % 256).toNat < 256 := by omega
  simp only [pack8, BitVec.toNat_ofNat]
  rw [Nat.mod_eq_of_lt h3]; omega

theorem sext8_pack8 {v : Int} (h : -128 ≤ v ∧ v ≤ 127) : sext8 (pack8 v) = v := by
  have := pack8_toNat v
  unfold sext8; split <;> omega

theorem sext8_bounds (b : Byte) : -128 ≤ sext8 b ∧ sext8 b ≤ 127 := by
  have := b.isLt
  unfold sext8; split <;> omega

theorem pack8_sext8 (b : Byte) : pack8 (sext8 b) = b := by
  have := b.isLt
  apply BitVec.eq_of_toNat_eq
  have h := pack8_toNat (sext8 b)
  have e : (sext8 b) % 256 = b.toNat := by unfold sext8; split <;> omega
  omega

theorem pack8_inj {v w : Int} (hv : -128 ≤ v ∧ v ≤ 127) (hw : -128 ≤ w ∧ w ≤ 127) (h : pack8 v = pack8 w) :
    v = w := by
  rw [← sext8_pack8 hv, h, sext8_pack8 hw]

/-- Among SignedBytes only 0 packs to the byte `0x00`. -/
theorem pack8_eq_zero_iff {v : Int} (h : -128 ≤ v ∧ v ≤ 127) : pack8 v = 0x00#8 ↔ v = 0 := by
  constructor
  · intro e; have := sext8_pack8 h; rw [e] at this; simpa [sext8] using this.symm
  · rintro rfl; rfl

namespace Machine

/-! ### CHECKSUM -/

theorem checksum_toNat (bs : List Byte) : (checksum bs).toNat = (byteSum bs + 1) % 256 := by
  simp [checksum]

theorem byteSum_append (a b : List Byte) : byteSum (a ++ b) = byteSum a + byteSum b := by
  simp [byteSum]

/-! ### RANGE -/

theorem rangeFrom_eq_none_iff (cmd : Command) (i : Nat) : rangeFrom i cmd = none ↔ Valid cmd := by
  induction cmd generalizing i with
  | nil => simp [rangeFrom, Valid]
  | cons v rest ih =>
    simp only [rangeFrom, Valid, List.forall_mem_cons]
    split
    · next h => simp [ih, Valid, (isSignedByte_iff v).mp h]
    · next h => simp [← isSignedByte_iff, h]

/-- RANGE reports the lowest failing index (R112). -/
theorem rangeFrom_eq_some {cmd : Command} {i j : Nat} {v : Int} (h : rangeFrom i cmd = some (j, v)) :
    ∃ k, j = i + k ∧ cmd[k]? = some v ∧ isSignedByte v = false ∧ Valid (cmd.take k) := by
  induction cmd generalizing i with
  | nil => simp [rangeFrom] at h
  | cons w rest ih =>
    simp only [rangeFrom] at h
    split at h
    · next hw =>
      obtain ⟨k, rfl, hv, hs, hp⟩ := ih h
      refine ⟨k + 1, by omega, by simpa using hv, hs, ?_⟩
      simpa [Valid] using ⟨(isSignedByte_iff w).mp hw, hp⟩
    · next hw =>
      obtain ⟨rfl, rfl⟩ := by simpa using h
      exact ⟨0, rfl, by simp, by simpa using hw, by simp [Valid]⟩

theorem rangeCheck_eq_none_iff (cmd : Command) : rangeCheck cmd = none ↔ Valid cmd := by
  rw [← rangeFrom_eq_none_iff cmd 0]
  unfold rangeCheck; split <;> simp_all

/-! ### ENCODE -/

theorem codecWith_valid {cmd : Command} (p : TrailingPolicy) (h : Valid cmd) :
    codecWith p cmd = .ok (encodeStages p cmd) := by
  simp [codecWith, (rangeCheck_eq_none_iff cmd).mpr h]

theorem codec_valid {cmd : Command} (h : Valid cmd) :
    codec cmd = .ok (encodeStages Config.cobsTrailingPolicy cmd) := codecWith_valid _ h

/-- What a Command that is not valid is answered with: `RangeError` at its lowest failing index (R112). -/
theorem codecWith_invalid {cmd : Command} (p : TrailingPolicy) (h : ¬ Valid cmd) :
    ∃ i v, codecWith p cmd = .error (.range (.element i) v .signedByte) ∧ cmd[i]? = some v ∧
      ¬ (-128 ≤ v ∧ v ≤ 127) ∧ Valid (cmd.take i) := by
  cases hr : rangeFrom 0 cmd with
  | none => exact absurd ((rangeFrom_eq_none_iff cmd 0).mp hr) h
  | some x =>
    obtain ⟨k, hj, hv, hs, hp⟩ := rangeFrom_eq_some (i := 0) (j := x.1) (v := x.2) hr
    refine ⟨x.1, x.2, by simp [codecWith, rangeCheck, hr], ?_, ?_, ?_⟩
    · simpa [hj] using hv
    · rw [← isSignedByte_iff]; simp [hs]
    · simpa [hj] using hp

theorem codec_error {cmd : Command} {e : Err} (h : codec cmd = .error e) :
    ¬ Valid cmd ∧ ∃ i v, e = .range (.element i) v .signedByte := by
  have hn : ¬ Valid cmd := fun hv => by simp [codec_valid hv] at h
  obtain ⟨i, v, hc, -⟩ := codecWith_invalid Config.cobsTrailingPolicy hn
  exact ⟨hn, i, v, by simpa [codec, hc] using h.symm⟩

@[simp] theorem encodeStages_raw (cmd : Command) :
    (encodeStages Config.cobsTrailingPolicy cmd).raw = cmd.map pack8 := rfl
@[simp] theorem encodeStages_stuffed (cmd : Command) :
    (encodeStages Config.cobsTrailingPolicy cmd).stuffed = stuffedOf cmd := rfl
@[simp] theorem encodeStages_chk (cmd : Command) :
    (encodeStages Config.cobsTrailingPolicy cmd).chk = checksum (stuffedOf cmd) := rfl
@[simp] theorem encodeStages_frame (cmd : Command) :
    (encodeStages Config.cobsTrailingPolicy cmd).frame = frameOf cmd := by
  simp [encodeStages, frameOf, stuffedOf, terminate, pack, Config.terminator]
@[simp] theorem encodeStages_hex (cmd : Command) :
    (encodeStages Config.cobsTrailingPolicy cmd).hex = hexOf cmd := by
  simp [encodeStages, hexOf, frameOf, stuffedOf, terminate, pack, Config.terminator]

/-! ### Serializers -/

/-- BUILD_MOTION returns the Command exactly when the operands are SignedBytes (R141). -/
theorem buildMotion_ok {f s t : Int} (hf : -128 ≤ f ∧ f ≤ 127) (hs : -128 ≤ s ∧ s ≤ 127) (ht : -128 ≤ t ∧ t ≤ 127) :
    buildMotion f s t = .ok [6, f, s, t] := by
  simp [buildMotion, (isSignedByte_iff _).mpr hf, (isSignedByte_iff _).mpr hs, (isSignedByte_iff _).mpr ht,
    Config.opMotion]

/-- Everything BUILD_MOTION can return (R141). -/
theorem buildMotion_cases (f s t : Int) :
    (Valid [6, f, s, t] ∧ buildMotion f s t = .ok [6, f, s, t]) ∨
    ∃ x v, (x = .fwd ∨ x = .strafe ∨ x = .turn) ∧ buildMotion f s t = .error (.range x v .signedByte) := by
  unfold buildMotion
  split
  · exact .inr ⟨_, _, .inl rfl, rfl⟩
  split
  · exact .inr ⟨_, _, .inr (.inl rfl), rfl⟩
  split
  · exact .inr ⟨_, _, .inr (.inr rfl), rfl⟩
  · simp_all [isSignedByte_iff, Valid, Config.opMotion]

/-- BUILD_HEIGHT returns the Command exactly when the operand is a height (R142). -/
theorem buildHeight_ok {h : Int} (hh : 1 ≤ h ∧ h ≤ 127) : buildHeight h = .ok [4, 0, 7, h] := by
  simp [buildHeight, (isHeight_iff _).mpr hh, Config.opHeight, Config.heightK1, Config.heightK2]

/-- Everything BUILD_HEIGHT can return (R142). -/
theorem buildHeight_cases (h : Int) :
    ((1 ≤ h ∧ h ≤ 127) ∧ Valid [4, 0, 7, h] ∧ buildHeight h = .ok [4, 0, 7, h]) ∨
    buildHeight h = .error (.range .height h .height) := by
  by_cases hh : 1 ≤ h ∧ h ≤ 127
  · refine .inl ⟨hh, ?_, buildHeight_ok hh⟩
    simp [Valid]; omega
  · right
    have : isHeight h = false := by rw [← Bool.not_eq_true, isHeight_iff]; exact hh
    simp [buildHeight, this]

theorem valid_stop : Valid buildStop := by simp [Valid, buildStop]
theorem valid_turn : Valid buildTurn := by simp [Valid, buildTurn, Config.turnValue]
theorem valid_initCommand (k : Fin 3) : Valid (initCommand k) := by
  fin_cases k <;> simp [Valid, initCommand, initRom]

end Machine

end Sys2Proof
end

