-- ==== Sys2Proof/Laws/State.lean ====
section
/-!
SUPPORT. One lemma per field per update of the state, each true by unfolding, for `simp`.
-/
namespace Sys2Proof.Machine

section
variable (s : State)

/-! ### takeAnswer -/

@[simp] theorem takeAnswer_curHeight : s.takeAnswer.curHeight = s.curHeight := by
  unfold State.takeAnswer; split <;> rfl
@[simp] theorem takeAnswer_fatal : s.takeAnswer.fatal = s.fatal := by
  unfold State.takeAnswer; split <;> rfl
@[simp] theorem takeAnswer_cfgDefaultHeight : s.takeAnswer.cfgDefaultHeight = s.cfgDefaultHeight := by
  unfold State.takeAnswer; split <;> rfl
@[simp] theorem takeAnswer_cfgDelay : s.takeAnswer.cfgDelay = s.cfgDelay := by
  unfold State.takeAnswer; split <;> rfl
@[simp] theorem takeAnswer_maxLen : s.takeAnswer.maxLen = s.maxLen := by
  unfold State.takeAnswer; split <;> rfl
@[simp] theorem takeAnswer_cmd : s.takeAnswer.cmd = s.cmd := by
  unfold State.takeAnswer; split <;> rfl
@[simp] theorem takeAnswer_rawb : s.takeAnswer.rawb = s.rawb := by
  unfold State.takeAnswer; split <;> rfl
@[simp] theorem takeAnswer_stuffed : s.takeAnswer.stuffed = s.stuffed := by
  unfold State.takeAnswer; split <;> rfl
@[simp] theorem takeAnswer_chk : s.takeAnswer.chk = s.chk := by
  unfold State.takeAnswer; split <;> rfl
@[simp] theorem takeAnswer_frame : s.takeAnswer.frame = s.frame := by
  unfold State.takeAnswer; split <;> rfl
@[simp] theorem takeAnswer_hex : s.takeAnswer.hex = s.hex := by
  unfold State.takeAnswer; split <;> rfl
@[simp] theorem takeAnswer_phase : s.takeAnswer.phase = s.phase := by
  unfold State.takeAnswer; split <;> rfl
@[simp] theorem takeAnswer_seqIdx : s.takeAnswer.seqIdx = s.seqIdx := by
  unfold State.takeAnswer; split <;> rfl
@[simp] theorem takeAnswer_result : s.takeAnswer.result = s.result := by
  unfold State.takeAnswer; split <;> rfl
@[simp] theorem takeAnswer_txlog : s.takeAnswer.txlog = s.txlog := by
  unfold State.takeAnswer; split <;> rfl
@[simp] theorem takeAnswer_relay : s.takeAnswer.relay = s.relay := by
  unfold State.takeAnswer; split <;> rfl
@[simp] theorem takeAnswer_relayKind : s.takeAnswer.relayKind = s.relayKind := by
  unfold State.takeAnswer; split <;> rfl
@[simp] theorem takeAnswer_relayR : s.takeAnswer.relayR = s.relayR := by
  unfold State.takeAnswer; split <;> rfl
@[simp] theorem takeAnswer_requests : s.takeAnswer.requests = s.requests := by
  unfold State.takeAnswer; split <;> rfl
@[simp] theorem takeAnswer_sinkInputs : s.takeAnswer.sinkInputs = s.sinkInputs.tail := by
  unfold State.takeAnswer; split <;> simp_all
theorem takeAnswer_sinkDraws :
    s.takeAnswer.sinkDraws = if s.sinkInputs = [] then s.sinkDraws + 1 else s.sinkDraws := by
  unfold State.takeAnswer; split <;> simp_all

/-! ### enter -/

@[simp] theorem enter_curHeight (p : Phase) : (s.enter p).curHeight = s.curHeight := rfl
@[simp] theorem enter_fatal (p : Phase) : (s.enter p).fatal = s.fatal := rfl
@[simp] theorem enter_cfgDefaultHeight (p : Phase) : (s.enter p).cfgDefaultHeight = s.cfgDefaultHeight := rfl
@[simp] theorem enter_cfgDelay (p : Phase) : (s.enter p).cfgDelay = s.cfgDelay := rfl
@[simp] theorem enter_maxLen (p : Phase) : (s.enter p).maxLen = s.maxLen := rfl
@[simp] theorem enter_cmd (p : Phase) : (s.enter p).cmd = s.cmd := rfl
@[simp] theorem enter_rawb (p : Phase) : (s.enter p).rawb = s.rawb := rfl
@[simp] theorem enter_stuffed (p : Phase) : (s.enter p).stuffed = s.stuffed := rfl
@[simp] theorem enter_chk (p : Phase) : (s.enter p).chk = s.chk := rfl
@[simp] theorem enter_frame (p : Phase) : (s.enter p).frame = s.frame := rfl
@[simp] theorem enter_hex (p : Phase) : (s.enter p).hex = s.hex := rfl
@[simp] theorem enter_phase (p : Phase) : (s.enter p).phase = p := rfl
@[simp] theorem enter_seqIdx (p : Phase) : (s.enter p).seqIdx = s.seqIdx := rfl
@[simp] theorem enter_result (p : Phase) : (s.enter p).result = s.result := rfl
@[simp] theorem enter_txlog (p : Phase) : (s.enter p).txlog = s.txlog := rfl
@[simp] theorem enter_relay (p : Phase) : (s.enter p).relay = s.relay := rfl
@[simp] theorem enter_relayKind (p : Phase) : (s.enter p).relayKind = s.relayKind := rfl
@[simp] theorem enter_relayR (p : Phase) : (s.enter p).relayR = s.relayR := rfl
@[simp] theorem enter_requests (p : Phase) : (s.enter p).requests = s.requests := rfl
@[simp] theorem enter_sinkInputs (p : Phase) : (s.enter p).sinkInputs = s.sinkInputs := rfl
@[simp] theorem enter_sinkDraws (p : Phase) : (s.enter p).sinkDraws = s.sinkDraws := rfl

/-! ### load -/

@[simp] theorem load_curHeight (c : Command) : (s.load c).curHeight = s.curHeight := rfl
@[simp] theorem load_fatal (c : Command) : (s.load c).fatal = s.fatal := rfl
@[simp] theorem load_cfgDefaultHeight (c : Command) : (s.load c).cfgDefaultHeight = s.cfgDefaultHeight := rfl
@[simp] theorem load_cfgDelay (c : Command) : (s.load c).cfgDelay = s.cfgDelay := rfl
@[simp] theorem load_maxLen (c : Command) : (s.load c).maxLen = s.maxLen := rfl
@[simp] theorem load_cmd (c : Command) : (s.load c).cmd = some c := rfl
@[simp] theorem load_rawb (c : Command) : (s.load c).rawb = s.rawb := rfl
@[simp] theorem load_stuffed (c : Command) : (s.load c).stuffed = s.stuffed := rfl
@[simp] theorem load_chk (c : Command) : (s.load c).chk = s.chk := rfl
@[simp] theorem load_frame (c : Command) : (s.load c).frame = s.frame := rfl
@[simp] theorem load_hex (c : Command) : (s.load c).hex = s.hex := rfl
@[simp] theorem load_phase (c : Command) : (s.load c).phase = s.phase := rfl
@[simp] theorem load_seqIdx (c : Command) : (s.load c).seqIdx = s.seqIdx := rfl
@[simp] theorem load_result (c : Command) : (s.load c).result = s.result := rfl
@[simp] theorem load_txlog (c : Command) : (s.load c).txlog = s.txlog := rfl
@[simp] theorem load_relay (c : Command) : (s.load c).relay = s.relay := rfl
@[simp] theorem load_relayKind (c : Command) : (s.load c).relayKind = s.relayKind := rfl
@[simp] theorem load_relayR (c : Command) : (s.load c).relayR = s.relayR := rfl
@[simp] theorem load_requests (c : Command) : (s.load c).requests = s.requests := rfl
@[simp] theorem load_sinkInputs (c : Command) : (s.load c).sinkInputs = s.sinkInputs := rfl
@[simp] theorem load_sinkDraws (c : Command) : (s.load c).sinkDraws = s.sinkDraws := rfl

/-! ### dropBuffers -/

@[simp] theorem dropBuffers_curHeight : s.dropBuffers.curHeight = s.curHeight := rfl
@[simp] theorem dropBuffers_fatal : s.dropBuffers.fatal = s.fatal := rfl
@[simp] theorem dropBuffers_cfgDefaultHeight : s.dropBuffers.cfgDefaultHeight = s.cfgDefaultHeight := rfl
@[simp] theorem dropBuffers_cfgDelay : s.dropBuffers.cfgDelay = s.cfgDelay := rfl
@[simp] theorem dropBuffers_maxLen : s.dropBuffers.maxLen = s.maxLen := rfl
@[simp] theorem dropBuffers_cmd : s.dropBuffers.cmd = s.cmd := rfl
@[simp] theorem dropBuffers_rawb : s.dropBuffers.rawb = none := rfl
@[simp] theorem dropBuffers_stuffed : s.dropBuffers.stuffed = none := rfl
@[simp] theorem dropBuffers_chk : s.dropBuffers.chk = none := rfl
@[simp] theorem dropBuffers_frame : s.dropBuffers.frame = none := rfl
@[simp] theorem dropBuffers_hex : s.dropBuffers.hex = none := rfl
@[simp] theorem dropBuffers_phase : s.dropBuffers.phase = s.phase := rfl
@[simp] theorem dropBuffers_seqIdx : s.dropBuffers.seqIdx = s.seqIdx := rfl
@[simp] theorem dropBuffers_result : s.dropBuffers.result = s.result := rfl
@[simp] theorem dropBuffers_txlog : s.dropBuffers.txlog = s.txlog := rfl
@[simp] theorem dropBuffers_relay : s.dropBuffers.relay = s.relay := rfl
@[simp] theorem dropBuffers_relayKind : s.dropBuffers.relayKind = s.relayKind := rfl
@[simp] theorem dropBuffers_relayR : s.dropBuffers.relayR = s.relayR := rfl
@[simp] theorem dropBuffers_requests : s.dropBuffers.requests = s.requests := rfl
@[simp] theorem dropBuffers_sinkInputs : s.dropBuffers.sinkInputs = s.sinkInputs := rfl
@[simp] theorem dropBuffers_sinkDraws : s.dropBuffers.sinkDraws = s.sinkDraws := rfl

/-! ### runStages -/

@[simp] theorem runStages_curHeight (e : Encoded) : (s.runStages e).curHeight = s.curHeight := rfl
@[simp] theorem runStages_fatal (e : Encoded) : (s.runStages e).fatal = s.fatal := rfl
@[simp] theorem runStages_cfgDefaultHeight (e : Encoded) :
    (s.runStages e).cfgDefaultHeight = s.cfgDefaultHeight := rfl
@[simp] theorem runStages_cfgDelay (e : Encoded) : (s.runStages e).cfgDelay = s.cfgDelay := rfl
@[simp] theorem runStages_maxLen (e : Encoded) : (s.runStages e).maxLen = s.maxLen := rfl
@[simp] theorem runStages_cmd (e : Encoded) : (s.runStages e).cmd = s.cmd := rfl
@[simp] theorem runStages_rawb (e : Encoded) : (s.runStages e).rawb = some e.raw := rfl
@[simp] theorem runStages_stuffed (e : Encoded) : (s.runStages e).stuffed = some e.stuffed := rfl
@[simp] theorem runStages_chk (e : Encoded) : (s.runStages e).chk = some e.chk := rfl
@[simp] theorem runStages_frame (e : Encoded) : (s.runStages e).frame = some e.frame := rfl
@[simp] theorem runStages_hex (e : Encoded) : (s.runStages e).hex = some e.hex := rfl
@[simp] theorem runStages_phase (e : Encoded) : (s.runStages e).phase = .render := rfl
@[simp] theorem runStages_seqIdx (e : Encoded) : (s.runStages e).seqIdx = s.seqIdx := rfl
@[simp] theorem runStages_result (e : Encoded) : (s.runStages e).result = s.result := rfl
@[simp] theorem runStages_txlog (e : Encoded) : (s.runStages e).txlog = s.txlog := rfl
@[simp] theorem runStages_relay (e : Encoded) : (s.runStages e).relay = s.relay := rfl
@[simp] theorem runStages_relayKind (e : Encoded) : (s.runStages e).relayKind = s.relayKind := rfl
@[simp] theorem runStages_relayR (e : Encoded) : (s.runStages e).relayR = s.relayR := rfl
@[simp] theorem runStages_requests (e : Encoded) : (s.runStages e).requests = s.requests := rfl
@[simp] theorem runStages_sinkInputs (e : Encoded) : (s.runStages e).sinkInputs = s.sinkInputs := rfl
@[simp] theorem runStages_sinkDraws (e : Encoded) : (s.runStages e).sinkDraws = s.sinkDraws := rfl

/-! ### sinkWrite -/

@[simp] theorem sinkWrite_curHeight (f : List Byte) :
    (s.sinkWrite f).curHeight = s.curHeight := takeAnswer_curHeight s
@[simp] theorem sinkWrite_fatal (f : List Byte) : (s.sinkWrite f).fatal = fatalAfter s.fatal s.sinkAnswer := rfl
@[simp] theorem sinkWrite_cfgDefaultHeight (f : List Byte) :
    (s.sinkWrite f).cfgDefaultHeight = s.cfgDefaultHeight := takeAnswer_cfgDefaultHeight s
@[simp] theorem sinkWrite_cfgDelay (f : List Byte) : (s.sinkWrite f).cfgDelay = s.cfgDelay := takeAnswer_cfgDelay s
@[simp] theorem sinkWrite_maxLen (f : List Byte) : (s.sinkWrite f).maxLen = s.maxLen := takeAnswer_maxLen s
@[simp] theorem sinkWrite_cmd (f : List Byte) : (s.sinkWrite f).cmd = s.cmd := takeAnswer_cmd s
@[simp] theorem sinkWrite_rawb (f : List Byte) : (s.sinkWrite f).rawb = s.rawb := takeAnswer_rawb s
@[simp] theorem sinkWrite_stuffed (f : List Byte) : (s.sinkWrite f).stuffed = s.stuffed := takeAnswer_stuffed s
@[simp] theorem sinkWrite_chk (f : List Byte) : (s.sinkWrite f).chk = s.chk := takeAnswer_chk s
@[simp] theorem sinkWrite_frame (f : List Byte) : (s.sinkWrite f).frame = s.frame := takeAnswer_frame s
@[simp] theorem sinkWrite_hex (f : List Byte) : (s.sinkWrite f).hex = s.hex := takeAnswer_hex s
@[simp] theorem sinkWrite_phase (f : List Byte) : (s.sinkWrite f).phase = .write := rfl
@[simp] theorem sinkWrite_seqIdx (f : List Byte) : (s.sinkWrite f).seqIdx = s.seqIdx := takeAnswer_seqIdx s
@[simp] theorem sinkWrite_result (f : List Byte) : (s.sinkWrite f).result = s.result := takeAnswer_result s
@[simp] theorem sinkWrite_txlog (f : List Byte) : (s.sinkWrite f).txlog = s.txlog ++ [.tx f s.sinkAnswer] := rfl
@[simp] theorem sinkWrite_relay (f : List Byte) : (s.sinkWrite f).relay = s.relay := takeAnswer_relay s
@[simp] theorem sinkWrite_relayKind (f : List Byte) :
    (s.sinkWrite f).relayKind = s.relayKind := takeAnswer_relayKind s
@[simp] theorem sinkWrite_relayR (f : List Byte) : (s.sinkWrite f).relayR = s.relayR := takeAnswer_relayR s
@[simp] theorem sinkWrite_requests (f : List Byte) : (s.sinkWrite f).requests = s.requests := takeAnswer_requests s
@[simp] theorem sinkWrite_sinkInputs (f : List Byte) : (s.sinkWrite f).sinkInputs = s.takeAnswer.sinkInputs := rfl
@[simp] theorem sinkWrite_sinkDraws (f : List Byte) : (s.sinkWrite f).sinkDraws = s.takeAnswer.sinkDraws := rfl

/-! ### waitDelay -/

@[simp] theorem waitDelay_curHeight : s.waitDelay.curHeight = s.curHeight := rfl
@[simp] theorem waitDelay_fatal : s.waitDelay.fatal = s.fatal := rfl
@[simp] theorem waitDelay_cfgDefaultHeight : s.waitDelay.cfgDefaultHeight = s.cfgDefaultHeight := rfl
@[simp] theorem waitDelay_cfgDelay : s.waitDelay.cfgDelay = s.cfgDelay := rfl
@[simp] theorem waitDelay_maxLen : s.waitDelay.maxLen = s.maxLen := rfl
@[simp] theorem waitDelay_cmd : s.waitDelay.cmd = s.cmd := rfl
@[simp] theorem waitDelay_rawb : s.waitDelay.rawb = s.rawb := rfl
@[simp] theorem waitDelay_stuffed : s.waitDelay.stuffed = s.stuffed := rfl
@[simp] theorem waitDelay_chk : s.waitDelay.chk = s.chk := rfl
@[simp] theorem waitDelay_frame : s.waitDelay.frame = s.frame := rfl
@[simp] theorem waitDelay_hex : s.waitDelay.hex = s.hex := rfl
@[simp] theorem waitDelay_phase : s.waitDelay.phase = .delay := rfl
@[simp] theorem waitDelay_seqIdx : s.waitDelay.seqIdx = s.seqIdx := rfl
@[simp] theorem waitDelay_result : s.waitDelay.result = s.result := rfl
@[simp] theorem waitDelay_txlog : s.waitDelay.txlog = s.txlog ++ [.gap] := rfl
@[simp] theorem waitDelay_relay : s.waitDelay.relay = s.relay := rfl
@[simp] theorem waitDelay_relayKind : s.waitDelay.relayKind = s.relayKind := rfl
@[simp] theorem waitDelay_relayR : s.waitDelay.relayR = s.relayR := rfl
@[simp] theorem waitDelay_requests : s.waitDelay.requests = s.requests := rfl
@[simp] theorem waitDelay_sinkInputs : s.waitDelay.sinkInputs = s.sinkInputs := rfl
@[simp] theorem waitDelay_sinkDraws : s.waitDelay.sinkDraws = s.sinkDraws := rfl

/-! ### raiseError -/

@[simp] theorem raiseError_curHeight (e : Err) : (s.raiseError e).curHeight = s.curHeight := rfl
@[simp] theorem raiseError_fatal (e : Err) : (s.raiseError e).fatal = s.fatal := rfl
@[simp] theorem raiseError_cfgDefaultHeight (e : Err) : (s.raiseError e).cfgDefaultHeight = s.cfgDefaultHeight := rfl
@[simp] theorem raiseError_cfgDelay (e : Err) : (s.raiseError e).cfgDelay = s.cfgDelay := rfl
@[simp] theorem raiseError_maxLen (e : Err) : (s.raiseError e).maxLen = s.maxLen := rfl
@[simp] theorem raiseError_cmd (e : Err) : (s.raiseError e).cmd = s.cmd := rfl
@[simp] theorem raiseError_rawb (e : Err) : (s.raiseError e).rawb = s.rawb := rfl
@[simp] theorem raiseError_stuffed (e : Err) : (s.raiseError e).stuffed = s.stuffed := rfl
@[simp] theorem raiseError_chk (e : Err) : (s.raiseError e).chk = s.chk := rfl
@[simp] theorem raiseError_frame (e : Err) : (s.raiseError e).frame = s.frame := rfl
@[simp] theorem raiseError_hex (e : Err) : (s.raiseError e).hex = s.hex := rfl
@[simp] theorem raiseError_phase (e : Err) : (s.raiseError e).phase = .idle := rfl
@[simp] theorem raiseError_seqIdx (e : Err) : (s.raiseError e).seqIdx = s.seqIdx := rfl
@[simp] theorem raiseError_result (e : Err) : (s.raiseError e).result = some (.err e) := rfl
@[simp] theorem raiseError_txlog (e : Err) : (s.raiseError e).txlog = s.txlog := rfl
@[simp] theorem raiseError_relay (e : Err) : (s.raiseError e).relay = s.relay := rfl
@[simp] theorem raiseError_relayKind (e : Err) : (s.raiseError e).relayKind = s.relayKind := rfl
@[simp] theorem raiseError_relayR (e : Err) : (s.raiseError e).relayR = s.relayR := rfl
@[simp] theorem raiseError_requests (e : Err) : (s.raiseError e).requests = s.requests := rfl
@[simp] theorem raiseError_sinkInputs (e : Err) : (s.raiseError e).sinkInputs = s.sinkInputs := rfl
@[simp] theorem raiseError_sinkDraws (e : Err) : (s.raiseError e).sinkDraws = s.sinkDraws := rfl

/-! ### completeOk -/

@[simp] theorem completeOk_curHeight (v : Value) : (s.completeOk v).curHeight = s.curHeight := rfl
@[simp] theorem completeOk_fatal (v : Value) : (s.completeOk v).fatal = s.fatal := rfl
@[simp] theorem completeOk_cfgDefaultHeight (v : Value) :
    (s.completeOk v).cfgDefaultHeight = s.cfgDefaultHeight := rfl
@[simp] theorem completeOk_cfgDelay (v : Value) : (s.completeOk v).cfgDelay = s.cfgDelay := rfl
@[simp] theorem completeOk_maxLen (v : Value) : (s.completeOk v).maxLen = s.maxLen := rfl
@[simp] theorem completeOk_cmd (v : Value) : (s.completeOk v).cmd = s.cmd := rfl
@[simp] theorem completeOk_rawb (v : Value) : (s.completeOk v).rawb = s.rawb := rfl
@[simp] theorem completeOk_stuffed (v : Value) : (s.completeOk v).stuffed = s.stuffed := rfl
@[simp] theorem completeOk_chk (v : Value) : (s.completeOk v).chk = s.chk := rfl
@[simp] theorem completeOk_frame (v : Value) : (s.completeOk v).frame = s.frame := rfl
@[simp] theorem completeOk_hex (v : Value) : (s.completeOk v).hex = s.hex := rfl
@[simp] theorem completeOk_phase (v : Value) : (s.completeOk v).phase = .idle := rfl
@[simp] theorem completeOk_seqIdx (v : Value) : (s.completeOk v).seqIdx = s.seqIdx := rfl
@[simp] theorem completeOk_result (v : Value) : (s.completeOk v).result = some (.ok v) := rfl
@[simp] theorem completeOk_txlog (v : Value) : (s.completeOk v).txlog = s.txlog := rfl
@[simp] theorem completeOk_relay (v : Value) : (s.completeOk v).relay = s.relay := rfl
@[simp] theorem completeOk_relayKind (v : Value) : (s.completeOk v).relayKind = s.relayKind := rfl
@[simp] theorem completeOk_relayR (v : Value) : (s.completeOk v).relayR = s.relayR := rfl
@[simp] theorem completeOk_requests (v : Value) : (s.completeOk v).requests = s.requests := rfl
@[simp] theorem completeOk_sinkInputs (v : Value) : (s.completeOk v).sinkInputs = s.sinkInputs := rfl
@[simp] theorem completeOk_sinkDraws (v : Value) : (s.completeOk v).sinkDraws = s.sinkDraws := rfl

/-! ### relayDone -/

@[simp] theorem relayDone_curHeight (k : MsgKind) (r : OpResult) : (s.relayDone k r).curHeight = s.curHeight := rfl
@[simp] theorem relayDone_fatal (k : MsgKind) (r : OpResult) : (s.relayDone k r).fatal = s.fatal := rfl
@[simp] theorem relayDone_cfgDefaultHeight (k : MsgKind) (r : OpResult) :
    (s.relayDone k r).cfgDefaultHeight = s.cfgDefaultHeight := rfl
@[simp] theorem relayDone_cfgDelay (k : MsgKind) (r : OpResult) : (s.relayDone k r).cfgDelay = s.cfgDelay := rfl
@[simp] theorem relayDone_maxLen (k : MsgKind) (r : OpResult) : (s.relayDone k r).maxLen = s.maxLen := rfl
@[simp] theorem relayDone_cmd (k : MsgKind) (r : OpResult) : (s.relayDone k r).cmd = s.cmd := rfl
@[simp] theorem relayDone_rawb (k : MsgKind) (r : OpResult) : (s.relayDone k r).rawb = s.rawb := rfl
@[simp] theorem relayDone_stuffed (k : MsgKind) (r : OpResult) : (s.relayDone k r).stuffed = s.stuffed := rfl
@[simp] theorem relayDone_chk (k : MsgKind) (r : OpResult) : (s.relayDone k r).chk = s.chk := rfl
@[simp] theorem relayDone_frame (k : MsgKind) (r : OpResult) : (s.relayDone k r).frame = s.frame := rfl
@[simp] theorem relayDone_hex (k : MsgKind) (r : OpResult) : (s.relayDone k r).hex = s.hex := rfl
@[simp] theorem relayDone_phase (k : MsgKind) (r : OpResult) : (s.relayDone k r).phase = s.phase := rfl
@[simp] theorem relayDone_seqIdx (k : MsgKind) (r : OpResult) : (s.relayDone k r).seqIdx = s.seqIdx := rfl
@[simp] theorem relayDone_result (k : MsgKind) (r : OpResult) : (s.relayDone k r).result = s.result := rfl
@[simp] theorem relayDone_txlog (k : MsgKind) (r : OpResult) : (s.relayDone k r).txlog = s.txlog := rfl
@[simp] theorem relayDone_relay (k : MsgKind) (r : OpResult) :
    (s.relayDone k r).relay = if r.endsSession then .terminated else s.relay := rfl
@[simp] theorem relayDone_relayKind (k : MsgKind) (r : OpResult) : (s.relayDone k r).relayKind = some k := rfl
@[simp] theorem relayDone_relayR (k : MsgKind) (r : OpResult) : (s.relayDone k r).relayR = some r := rfl
@[simp] theorem relayDone_requests (k : MsgKind) (r : OpResult) : (s.relayDone k r).requests = s.requests := rfl
@[simp] theorem relayDone_sinkInputs (k : MsgKind) (r : OpResult) : (s.relayDone k r).sinkInputs = s.sinkInputs := rfl
@[simp] theorem relayDone_sinkDraws (k : MsgKind) (r : OpResult) : (s.relayDone k r).sinkDraws = s.sinkDraws := rfl

/-! ### finish: RESULT and PHASE only -/

@[simp] theorem finish_curHeight (r : OpResult) : (s.finish r).curHeight = s.curHeight := by cases r <;> rfl
@[simp] theorem finish_fatal (r : OpResult) : (s.finish r).fatal = s.fatal := by cases r <;> rfl
@[simp] theorem finish_cfgDefaultHeight (r : OpResult) : (s.finish r).cfgDefaultHeight = s.cfgDefaultHeight := by cases r <;> rfl
@[simp] theorem finish_cfgDelay (r : OpResult) : (s.finish r).cfgDelay = s.cfgDelay := by cases r <;> rfl
@[simp] theorem finish_maxLen (r : OpResult) : (s.finish r).maxLen = s.maxLen := by cases r <;> rfl
@[simp] theorem finish_cmd (r : OpResult) : (s.finish r).cmd = s.cmd := by cases r <;> rfl
@[simp] theorem finish_rawb (r : OpResult) : (s.finish r).rawb = s.rawb := by cases r <;> rfl
@[simp] theorem finish_stuffed (r : OpResult) : (s.finish r).stuffed = s.stuffed := by cases r <;> rfl
@[simp] theorem finish_chk (r : OpResult) : (s.finish r).chk = s.chk := by cases r <;> rfl
@[simp] theorem finish_frame (r : OpResult) : (s.finish r).frame = s.frame := by cases r <;> rfl
@[simp] theorem finish_hex (r : OpResult) : (s.finish r).hex = s.hex := by cases r <;> rfl
@[simp] theorem finish_phase (r : OpResult) : (s.finish r).phase = .idle := by cases r <;> rfl
@[simp] theorem finish_seqIdx (r : OpResult) : (s.finish r).seqIdx = s.seqIdx := by cases r <;> rfl
@[simp] theorem finish_result (r : OpResult) : (s.finish r).result = some r := by cases r <;> rfl
@[simp] theorem finish_txlog (r : OpResult) : (s.finish r).txlog = s.txlog := by cases r <;> rfl
@[simp] theorem finish_relay (r : OpResult) : (s.finish r).relay = s.relay := by cases r <;> rfl
@[simp] theorem finish_relayKind (r : OpResult) : (s.finish r).relayKind = s.relayKind := by cases r <;> rfl
@[simp] theorem finish_relayR (r : OpResult) : (s.finish r).relayR = s.relayR := by cases r <;> rfl
@[simp] theorem finish_requests (r : OpResult) : (s.finish r).requests = s.requests := by cases r <;> rfl
@[simp] theorem finish_sinkInputs (r : OpResult) : (s.finish r).sinkInputs = s.sinkInputs := by cases r <;> rfl
@[simp] theorem finish_sinkDraws (r : OpResult) : (s.finish r).sinkDraws = s.sinkDraws := by cases r <;> rfl

/-! ### afterReset -/

@[simp] theorem afterReset_curHeight (h : Int) (d : Nat) : (s.afterReset h d).curHeight = h := rfl
@[simp] theorem afterReset_fatal (h : Int) (d : Nat) : (s.afterReset h d).fatal = false := rfl
@[simp] theorem afterReset_cfgDefaultHeight (h : Int) (d : Nat) : (s.afterReset h d).cfgDefaultHeight = h := rfl
@[simp] theorem afterReset_cfgDelay (h : Int) (d : Nat) : (s.afterReset h d).cfgDelay = d := rfl
@[simp] theorem afterReset_maxLen (h : Int) (d : Nat) : (s.afterReset h d).maxLen = s.maxLen := rfl
@[simp] theorem afterReset_cmd (h : Int) (d : Nat) : (s.afterReset h d).cmd = none := rfl
@[simp] theorem afterReset_rawb (h : Int) (d : Nat) : (s.afterReset h d).rawb = none := rfl
@[simp] theorem afterReset_stuffed (h : Int) (d : Nat) : (s.afterReset h d).stuffed = none := rfl
@[simp] theorem afterReset_chk (h : Int) (d : Nat) : (s.afterReset h d).chk = none := rfl
@[simp] theorem afterReset_frame (h : Int) (d : Nat) : (s.afterReset h d).frame = none := rfl
@[simp] theorem afterReset_hex (h : Int) (d : Nat) : (s.afterReset h d).hex = none := rfl
@[simp] theorem afterReset_phase (h : Int) (d : Nat) : (s.afterReset h d).phase = .idle := rfl
@[simp] theorem afterReset_seqIdx (h : Int) (d : Nat) : (s.afterReset h d).seqIdx = none := rfl
@[simp] theorem afterReset_result (h : Int) (d : Nat) : (s.afterReset h d).result = none := rfl
@[simp] theorem afterReset_txlog (h : Int) (d : Nat) : (s.afterReset h d).txlog = [] := rfl
@[simp] theorem afterReset_relay (h : Int) (d : Nat) : (s.afterReset h d).relay = .running := rfl
@[simp] theorem afterReset_relayKind (h : Int) (d : Nat) : (s.afterReset h d).relayKind = none := rfl
@[simp] theorem afterReset_relayR (h : Int) (d : Nat) : (s.afterReset h d).relayR = none := rfl
@[simp] theorem afterReset_requests (h : Int) (d : Nat) : (s.afterReset h d).requests = s.requests := rfl
@[simp] theorem afterReset_sinkInputs (h : Int) (d : Nat) : (s.afterReset h d).sinkInputs = s.sinkInputs := rfl
@[simp] theorem afterReset_sinkDraws (h : Int) (d : Nat) : (s.afterReset h d).sinkDraws = s.sinkDraws := rfl

end

end Sys2Proof.Machine
end

