-- ==== Sys2Proof/Laws/Ops.lean ====
section
/-!
SUPPORT. One lemma per shared operation of Machine/Ops.lean that says everything it can do.
-/
namespace Sys2Proof.Machine

/-! ### Acceptance -/

/-- A request is answered exactly when it is accepted (R171). -/
theorem request_eq_next_iff (op : State → State × OpResult) (s : State) (x : State × OpResult) :
    request op s = .next x ↔ Accepting s ∧ x = ((op s).1.finish (op s).2, (op s).2) := by
  unfold request Accepting
  by_cases hf : s.fatal = true
  · simp [hf]
  · by_cases hp : s.phase = .idle
    · simp [hf, hp, eq_comm]
    · simp [hf, hp]

theorem request_accepting {op : State → State × OpResult} {s : State} (h : Accepting s) :
    request op s = .next ((op s).1.finish (op s).2, (op s).2) :=
  (request_eq_next_iff op s _).mpr ⟨h, rfl⟩

/-- A request that is not accepted has no transition (R213). -/
theorem request_refused {op : State → State × OpResult} {s : State} (h : ¬ Accepting s) :
    ∃ r, request op s = .refused r := by
  unfold request
  split
  · exact ⟨_, rfl⟩
  · next hf =>
    have hp : s.phase ≠ .idle := fun hp => h ⟨by simpa using hf, hp⟩
    exact ⟨.busy, if_pos hp⟩

theorem requestCommand_eq_next_iff (cmd : Command) (op : State → State × OpResult) (s : State) (x : State × OpResult) :
    requestCommand cmd op s = .next x ↔ s.fits cmd = true ∧ request op s = .next x := by
  unfold requestCommand; split <;> simp_all

theorem answered_eq_next_iff (o : Host.Outcome (State × OpResult) Fault Refusal) (t : State) :
    answered o = .next t ↔ ∃ x, o = .next x ∧ t = x.1 := by
  cases o <;> simp [answered, eq_comm]

/-- An accepted request leaves the finished state of its operation. -/
theorem answered_request_iff (op : State → State × OpResult) (s t : State) :
    answered (request op s) = .next t ↔ Accepting s ∧ t = (op s).1.finish (op s).2 := by
  simp only [answered_eq_next_iff, request_eq_next_iff]
  constructor
  · rintro ⟨x, ⟨h, rfl⟩, rfl⟩; exact ⟨h, rfl⟩
  · rintro ⟨h, rfl⟩; exact ⟨_, ⟨h, rfl⟩, rfl⟩

theorem answered_requestCommand_iff (cmd : Command) (op : State → State × OpResult) (s t : State) :
    answered (requestCommand cmd op s) = .next t ↔
      s.fits cmd = true ∧ Accepting s ∧ t = (op s).1.finish (op s).2 := by
  simp only [answered_eq_next_iff, requestCommand_eq_next_iff, request_eq_next_iff]
  constructor
  · rintro ⟨x, ⟨hf, h, rfl⟩, rfl⟩; exact ⟨hf, h, rfl⟩
  · rintro ⟨hf, h, rfl⟩; exact ⟨_, ⟨hf, h, rfl⟩, rfl⟩

/-! ### ENCODE and EXECUTE -/

/-- ENCODE of a valid Command fills the buffers (R110). -/
theorem encodeOp_valid {cmd : Command} (h : Valid cmd) (s : State) :
    encodeOp cmd s = ({ Encodes s cmd with phase := .render }, .ok (.hex (hexOf cmd))) := by
  simp only [encodeOp, codec_valid h, encodeStages_hex]
  refine Prod.ext ?_ rfl
  ext1 <;> simp [Encodes]

/-- ENCODE of any other Command drops the buffers and names an element (R22, R112). -/
theorem encodeOp_invalid {cmd : Command} (h : ¬ Valid cmd) (s : State) :
    ∃ i v, codec cmd = .error (.range (.element i) v .signedByte) ∧
      encodeOp cmd s = (((s.load cmd).enter .range).dropBuffers, .err (.range (.element i) v .signedByte)) := by
  obtain ⟨i, v, hc, -⟩ := codecWith_invalid Config.cobsTrailingPolicy h
  exact ⟨i, v, hc, by simp [encodeOp, codec, hc]⟩

theorem sinkAnswer_congr {s t : State} (h : t.sinkInputs = s.sinkInputs) (hd : t.sinkDraws = s.sinkDraws) :
    t.sinkAnswer = s.sinkAnswer := by
  simp [State.sinkAnswer, h, hd]

@[simp] theorem load_sinkAnswer (s : State) (c : Command) : (s.load c).sinkAnswer = s.sinkAnswer := rfl
@[simp] theorem enter_sinkAnswer (s : State) (p : Phase) : (s.enter p).sinkAnswer = s.sinkAnswer := rfl
@[simp] theorem runStages_sinkAnswer (s : State) (e : Encoded) : (s.runStages e).sinkAnswer = s.sinkAnswer := rfl
@[simp] theorem dropBuffers_sinkAnswer (s : State) : s.dropBuffers.sinkAnswer = s.sinkAnswer := rfl

/-- EXECUTE of a valid Command is one hand-over and one delay (R160). -/
theorem executeOp_valid {cmd : Command} (h : Valid cmd) (d : Text) (s : State) :
    executeOp cmd d s = ({ Sent s cmd with phase := .delay }, sentResult s cmd) := by
  simp only [executeOp, codec_valid h, encodeStages_frame, encodeStages_hex, runStages_sinkAnswer, enter_sinkAnswer,
    load_sinkAnswer]
  refine Prod.ext ?_ ?_
  · ext1 <;> simp [Sent, Encodes, fatalAfter, takeAnswer_sinkDraws]
    rfl
  · simp only [sentResult]; cases s.sinkAnswer <;> rfl

/-- EXECUTE of any other Command hands nothing over (R160, D12). -/
theorem executeOp_invalid {cmd : Command} (h : ¬ Valid cmd) (d : Text) (s : State) :
    ∃ i v, codec cmd = .error (.range (.element i) v .signedByte) ∧
      executeOp cmd d s = (((s.load cmd).enter .range).dropBuffers, .err (.range (.element i) v .signedByte)) := by
  obtain ⟨i, v, hc, -⟩ := codecWith_invalid Config.cobsTrailingPolicy h
  exact ⟨i, v, hc, by simp [executeOp, codec, hc]⟩

theorem executeBuilt_error (e : Err) (d : Text) (s : State) :
    executeBuilt (.error e) d s = ((s.enter .validate).dropBuffers, .err e) := rfl

theorem executeBuilt_ok (cmd : Command) (d : Text) (s : State) :
    executeBuilt (.ok cmd) d s = executeOp cmd d (s.enter .validate) := rfl

theorem executeBuilt_valid {cmd : Command} (h : Valid cmd) (d : Text) (s : State) :
    executeBuilt (.ok cmd) d s = ({ Sent s cmd with phase := .delay }, sentResult s cmd) := by
  rw [executeBuilt_ok, executeOp_valid h]; rfl

theorem sentResult_isOk (s : State) (cmd : Command) : (sentResult s cmd).isOk = (s.sinkAnswer == .ok) := by
  unfold sentResult; cases s.sinkAnswer <;> rfl

/-- One step of INIT (R170). -/
theorem initStepOp_eq (k : Fin 3) (s : State) :
    initStepOp k s =
      ({ Sent s (initCommand k) with
          phase := .delay
          seqIdx := some (if s.sinkAnswer = .ok then k.succ else k.castSucc) },
        sentResult s (initCommand k)) := by
  simp only [initStepOp, executeOp_valid (valid_initCommand k)]
  have hs : sentResult { s with seqIdx := some k.castSucc } (initCommand k) = sentResult s (initCommand k) := rfl
  rw [hs, sentResult_isOk]
  cases ha : s.sinkAnswer <;> rfl

/-- The state one step of INIT leaves, with SEQ_IDX at `q` (kept folded, so that nested steps stay small). -/
def initSent (s : State) (k : Fin 3) (q : Fin 4) : State :=
  { Sent s (initCommand k) with phase := .delay, seqIdx := some q }

@[simp] theorem initSent_sinkAnswer (s : State) (k : Fin 3) (q : Fin 4) :
    (initSent s k q).sinkAnswer = (Sent s (initCommand k)).sinkAnswer := rfl

/-- The loop of INIT goes on after an accepted hand-over and stops at a failed one (R170). -/
theorem initLoop_cons (k : Fin 3) (ks : List (Fin 3)) (s : State) :
    initLoop (k :: ks) s =
      if s.sinkAnswer = .ok then initLoop ks (initSent s k k.succ)
      else (initSent s k k.castSucc, .err .transport) := by
  simp only [initLoop, initStepOp_eq, sentResult_isOk]
  cases ha : s.sinkAnswer <;> simp [sentResult, ha, initSent]

/-- A hand-over looks at the session and the sink only, so RESULT and PHASE before it do not matter. -/
theorem finish_sent (s : State) (cmd : Command) (r : OpResult) :
    ({ Sent s cmd with phase := .delay } : State).finish r = { Sent s cmd with result := some r } := by
  cases r <;> rfl

/-! ### The relay -/

theorem whileRunning_eq_next_iff (s t : State) (o : Host.Outcome State Fault Refusal) :
    whileRunning s o = .next t ↔ s.relay = .running ∧ o = .next t := by
  unfold whileRunning; split <;> simp_all

theorem relayDispatch_eq_next_iff (k : MsgKind) (o : Host.Outcome (State × OpResult) Fault Refusal) (t : State) :
    relayDispatch k o = .next t ↔ ∃ x, o = .next x ∧ t = x.1.relayDone k x.2 := by
  cases o <;> simp [relayDispatch, eq_comm]

theorem relayDone_eq (s : State) (k : MsgKind) (r : OpResult) : s.relayDone k r = Relayed s k r := by
  simp [State.relayDone, Relayed, OpResult.endsSession]

end Sys2Proof.Machine
end

