-- ==== Sys2Proof/Laws/Effects.lean ====
section
/-!
SUPPORT. What an accepted operation of the block can do, said once for all of them; the whole-machine claims rest on it.
-/
namespace Sys2Proof.Machine

/-! ### The log -/

/-- A hand-over and its delay keep a log in order (R162, R163). -/
theorem LogOk.append {log : List Event} (h : LogOk log false) {cmd : Command} (hv : Valid cmd) (a : SinkAnswer) :
    LogOk (log ++ [.tx (frameOf cmd) a, .gap]) (a == .fail) := by
  match log with
  | [] => cases a <;> simp [LogOk] <;> exact ⟨cmd, hv, rfl⟩
  | .tx f .ok :: .gap :: rest => exact ⟨h.1, LogOk.append (log := rest) h.2 hv a⟩
  | [.tx f .fail, .gap] => simp [LogOk] at h
  | .tx f .fail :: .gap :: e :: rest => simp [LogOk] at h
  | [.tx f x] => simp [LogOk] at h
  | .tx f x :: .tx g y :: rest => simp [LogOk] at h
  | .gap :: rest => simp [LogOk] at h

/-! ### What an operation of the block can do -/

/-- From an accepting state `s`, an operation's state and result `x`, before RESULT is written. -/
structure OpSpec (s : State) (x : State × OpResult) : Prop where
  cfgDefaultHeight : x.1.cfgDefaultHeight = s.cfgDefaultHeight
  cfgDelay : x.1.cfgDelay = s.cfgDelay
  maxLen : x.1.maxLen = s.maxLen
  relay : x.1.relay = s.relay
  relayKind : x.1.relayKind = s.relayKind
  relayR : x.1.relayR = s.relayR
  requests : x.1.requests = s.requests
  /-- A log in order stays in order, and FATAL says whether the last hand-over failed. -/
  log : LogOk s.txlog false → LogOk x.1.txlog x.1.fatal
  /-- The log only grows. -/
  grows : s.txlog <+: x.1.txlog
  /-- All or nothing (R55). -/
  buffers : BuffersOk s → BuffersOk x.1
  /-- FATAL is set exactly by `TransportError`, after a failed hand-over. -/
  fatal : (x.1.fatal = true ↔ x.2 = .err .transport) ∧
    (x.1.fatal = true → ∃ before frame, x.1.txlog = before ++ [.tx frame .fail, .gap])
  /-- The block returns no `EncodingError` and no `ParseError` (R202, R204). -/
  kinds : x.2 ≠ .err .encoding ∧ ∀ p, x.2 ≠ .err (.parse p)
  /-- A `RangeError` leaves no trace outside RESULT, CMD and the buffers (R210). -/
  range : ∀ f v c, x.2 = .err (.range f v c) →
    x.1.curHeight = s.curHeight ∧ x.1.fatal = s.fatal ∧ x.1.txlog = s.txlog ∧ x.1.seqIdx = s.seqIdx ∧
      x.1.sinkInputs = s.sinkInputs ∧ x.1.sinkDraws = s.sinkDraws ∧ x.1.rawb = none ∧ x.1.stuffed = none ∧
      x.1.chk = none ∧ x.1.frame = none ∧ x.1.hex = none

/-- `BuffersOk` looks at CMD and the codec's buffers only. -/
theorem BuffersOk.congr {s t : State} (h : BuffersOk s) (h0 : t.cmd = s.cmd) (h1 : t.rawb = s.rawb)
    (h2 : t.stuffed = s.stuffed) (h3 : t.chk = s.chk) (h4 : t.frame = s.frame) (h5 : t.hex = s.hex) : BuffersOk t := by
  simpa [BuffersOk, h0, h1, h2, h3, h4, h5] using h

/-- One hand-over of a valid Command. -/
theorem opSpec_sent {s : State} (hf : s.fatal = false) {cmd : Command} (hv : Valid cmd) (p : Phase) (q : Option (Fin 4))
    (h : Int) : OpSpec s ({ Sent s cmd with phase := p, seqIdx := q, curHeight := h }, sentResult s cmd) where
  cfgDefaultHeight := rfl
  cfgDelay := rfl
  maxLen := rfl
  relay := rfl
  relayKind := rfl
  relayR := rfl
  requests := rfl
  log := fun hl => by simpa [Sent, Encodes, hf] using hl.append hv s.sinkAnswer
  grows := ⟨_, rfl⟩
  buffers := fun _ => .inr ⟨cmd, hv, rfl, rfl, rfl, rfl, rfl, rfl⟩
  fatal := by
    cases ha : s.sinkAnswer
    · simp [Sent, Encodes, sentResult, hf, ha]
    · simp only [Sent, Encodes, sentResult, hf, ha]
      exact ⟨by simp, fun _ => ⟨_, _, rfl⟩⟩
  kinds := by unfold sentResult; split <;> simp
  range := fun f v c hr => by unfold sentResult at hr; split at hr <;> simp at hr

/-- An operation that ended in `RangeError`. -/
theorem opSpec_range {s : State} (hf : s.fatal = false) (f : Field) (v : Int) (c : Constraint) (p : Phase)
    (cmd : Option Command) : OpSpec s ({ s.dropBuffers with phase := p, cmd := cmd }, .err (.range f v c)) := by
  constructor <;> simp_all [BuffersOk]

/-- An operation that changed nothing. -/
theorem opSpec_quiet {s : State} (hf : s.fatal = false) (v : Value) : OpSpec s (s, .ok v) := by
  constructor <;> simp_all

/-- An operation that filled the codec's buffers and sent nothing. -/
theorem opSpec_encodes {s : State} (hf : s.fatal = false) {cmd : Command} (hv : Valid cmd) (v : Value) (p : Phase) :
    OpSpec s ({ Encodes s cmd with phase := p }, .ok v) := by
  constructor <;> simp_all [Encodes, BuffersOk]

theorem opSpec_encode {s : State} (hf : s.fatal = false) (cmd : Command) : OpSpec s (encodeOp cmd s) := by
  by_cases hv : Valid cmd
  · rw [encodeOp_valid hv]
    exact opSpec_encodes hf hv _ .render
  · obtain ⟨i, v, -, he⟩ := encodeOp_invalid hv s
    rw [he]
    exact opSpec_range hf _ _ _ _ _

theorem opSpec_checksum {s : State} (hf : s.fatal = false) (bs : List Byte) : OpSpec s (checksumOp bs s) :=
  opSpec_quiet hf _

theorem opSpec_execute {s : State} (hf : s.fatal = false) (cmd : Command) (d : Text) :
    OpSpec s (executeOp cmd d s) := by
  by_cases hv : Valid cmd
  · rw [executeOp_valid hv]
    exact opSpec_sent hf hv .delay s.seqIdx s.curHeight
  · obtain ⟨i, v, -, he⟩ := executeOp_invalid hv d s
    rw [he]
    exact opSpec_range hf _ _ _ _ _

theorem opSpec_sendRaw {s : State} (hf : s.fatal = false) (d : Text) (ints : Command) :
    OpSpec s (sendRawOp d ints s) := by
  by_cases hv : Valid ints
  · rw [sendRawOp, buildRaw, executeBuilt_valid hv]
    exact opSpec_sent hf hv .delay s.seqIdx s.curHeight
  · obtain ⟨i, v, -, he⟩ := executeOp_invalid hv d (s.enter .validate)
    rw [sendRawOp, buildRaw, executeBuilt_ok, he]
    exact opSpec_range hf _ _ _ _ _

theorem opSpec_moveMotion {s : State} (hf : s.fatal = false) (f st t : Int) : OpSpec s (moveMotionOp f st t s) := by
  obtain ⟨hv, he⟩ | ⟨x, v, -, he⟩ := buildMotion_cases f st t
  · rw [moveMotionOp, he, executeBuilt_valid hv]
    exact opSpec_sent hf hv .delay s.seqIdx s.curHeight
  · rw [moveMotionOp, he, executeBuilt_error]
    exact opSpec_range hf _ _ _ _ _

/-- Everything SET_HEIGHT can do (R166). -/
theorem setHeightOp_cases (h : Int) (s : State) :
    ((1 ≤ h ∧ h ≤ 127) ∧ Valid [4, 0, 7, h] ∧
      setHeightOp h s =
        ({ Sent s [4, 0, 7, h] with
            phase := .delay
            curHeight := if s.sinkAnswer = .ok then h else s.curHeight }, sentResult s [4, 0, 7, h])) ∨
    setHeightOp h s = ((s.enter .validate).dropBuffers, .err (.range .height h .height)) := by
  obtain ⟨hh, hv, he⟩ | he := buildHeight_cases h
  · refine .inl ⟨hh, hv, ?_⟩
    simp only [setHeightOp, he, executeBuilt_valid hv, sentResult_isOk]
    cases s.sinkAnswer <;> rfl
  · right; simp [setHeightOp, he, executeBuilt_error, OpResult.isOk]

theorem opSpec_setHeight {s : State} (hf : s.fatal = false) (h : Int) : OpSpec s (setHeightOp h s) := by
  obtain ⟨-, hv, he⟩ | he := setHeightOp_cases h s
  · rw [he]
    exact opSpec_sent hf hv .delay s.seqIdx _
  · rw [he]
    exact opSpec_range hf _ _ _ _ _

theorem opSpec_stop {s : State} (hf : s.fatal = false) : OpSpec s (stopOp s) := by
  rw [stopOp, executeBuilt_valid valid_stop]
  exact opSpec_sent hf valid_stop .delay s.seqIdx s.curHeight

theorem opSpec_turn {s : State} (hf : s.fatal = false) : OpSpec s (turnOp s) := by
  rw [turnOp, executeBuilt_valid valid_turn]
  exact opSpec_sent hf valid_turn .delay s.seqIdx s.curHeight

theorem opSpec_initStep {s : State} (hf : s.fatal = false) (k : Fin 3) : OpSpec s (initStepOp k s) := by
  rw [initStepOp_eq]
  exact opSpec_sent hf (valid_initCommand k) .delay _ s.curHeight

/-- An operation that returned Ok and one after it. -/
theorem OpSpec.trans {s : State} {x y : State × OpResult} (h1 : OpSpec s x) (hx : x.1.fatal = false)
    (h2 : OpSpec x.1 y) (hr : ∀ f v c, y.2 ≠ .err (.range f v c)) : OpSpec s y where
  cfgDefaultHeight := h2.cfgDefaultHeight.trans h1.cfgDefaultHeight
  cfgDelay := h2.cfgDelay.trans h1.cfgDelay
  maxLen := h2.maxLen.trans h1.maxLen
  relay := h2.relay.trans h1.relay
  relayKind := h2.relayKind.trans h1.relayKind
  relayR := h2.relayR.trans h1.relayR
  requests := h2.requests.trans h1.requests
  log := fun h => h2.log (hx ▸ h1.log h)
  grows := h1.grows.trans h2.grows
  buffers := fun h => h2.buffers (h1.buffers h)
  fatal := h2.fatal
  kinds := h2.kinds
  range := fun f v c h => absurd h (hr f v c)

theorem sentResult_not_range (s : State) (cmd : Command) (f : Field) (v : Int) (c : Constraint) :
    sentResult s cmd ≠ .err (.range f v c) := by
  unfold sentResult; split <;> simp

theorem initLoop_spec (ks : List (Fin 3)) {s : State} (hf : s.fatal = false) :
    OpSpec s (initLoop ks s) ∧ (∀ f v c, (initLoop ks s).2 ≠ .err (.range f v c)) ∧
      (initLoop ks s).1.curHeight = s.curHeight := by
  induction ks generalizing s with
  | nil => exact ⟨opSpec_quiet hf _, by simp [initLoop], rfl⟩
  | cons k ks ih =>
    have h1 : OpSpec s (initSent s k k.succ, sentResult s (initCommand k)) :=
      opSpec_sent hf (valid_initCommand k) .delay _ s.curHeight
    rw [initLoop_cons]
    split
    · next ha =>
      have hx : (initSent s k k.succ).fatal = false := by simp [initSent, Sent, hf, ha]
      obtain ⟨i1, i2, i3⟩ := ih hx
      exact ⟨h1.trans hx i1 i2, i2, i3.trans rfl⟩
    · next ha =>
      have e : sentResult s (initCommand k) = .err .transport := by simp [sentResult, ha]
      have h2 : OpSpec s (initSent s k k.castSucc, sentResult s (initCommand k)) :=
        opSpec_sent hf (valid_initCommand k) .delay _ s.curHeight
      rw [e] at h2
      exact ⟨h2, by simp, rfl⟩

theorem opSpec_init {s : State} (hf : s.fatal = false) : OpSpec s (initOp s) := (initLoop_spec _ hf).1

/-! ### CUR_HEIGHT and SEQ_IDX -/

theorem executeOp_keeps (cmd : Command) (d : Text) (s : State) :
    (executeOp cmd d s).1.curHeight = s.curHeight ∧ (executeOp cmd d s).1.seqIdx = s.seqIdx := by
  unfold executeOp; cases codec cmd <;> simp

theorem executeBuilt_keeps (b : Except Err Command) (d : Text) (s : State) :
    (executeBuilt b d s).1.curHeight = s.curHeight ∧ (executeBuilt b d s).1.seqIdx = s.seqIdx := by
  cases b with
  | error e => simp [executeBuilt_error]
  | ok cmd => rw [executeBuilt_ok]; simpa using executeOp_keeps cmd d (s.enter .validate)

theorem encodeOp_keeps (cmd : Command) (s : State) :
    (encodeOp cmd s).1.curHeight = s.curHeight ∧ (encodeOp cmd s).1.seqIdx = s.seqIdx := by
  unfold encodeOp; cases codec cmd <;> simp

/-- SET_HEIGHT leaves SEQ_IDX, and CUR_HEIGHT unless the send returned Ok (R166, R211). -/
theorem setHeightOp_keeps (h : Int) (s : State) :
    (setHeightOp h s).1.seqIdx = s.seqIdx ∧
      ((setHeightOp h s).1.curHeight = s.curHeight ∨
        ((setHeightOp h s).1.curHeight = h ∧ 1 ≤ h ∧ h ≤ 127 ∧ ∃ hex, (setHeightOp h s).2 = .ok (.hex hex))) := by
  obtain ⟨hh, -, he⟩ | he := setHeightOp_cases h s
  · rw [he]
    refine ⟨rfl, ?_⟩
    cases ha : s.sinkAnswer
    · exact .inr ⟨by simp, hh.1, hh.2, _, by simp [sentResult, ha]; rfl⟩
    · exact .inl (by simp)
  · rw [he]; exact ⟨rfl, .inl rfl⟩

/-! ### Requests -/

/-- The operation behind a request to the block. -/
def opOf : Instr → State → State × OpResult
  | .motion f st t => moveMotionOp f st t
  | .height h => setHeightOp h
  | .stop => stopOp
  | .turn => turnOp
  | .init0 => initStepOp 0
  | .init1 => initStepOp 1
  | .init2 => initStepOp 2
  | .init => initOp
  | .raw d ints => sendRawOp d ints
  | .execute cmd d => executeOp cmd d
  | .encode cmd => encodeOp cmd
  | .checksum bs => checksumOp bs
  | .reset _ _ => fun s => (s, .ok .done)
  | .classify _ => fun s => (s, .ok .done)
  | .exit => fun s => (s, .ok .done)
  | .motionMessage _ => fun s => (s, .ok .done)
  | .heightMessage _ => fun s => (s, .ok .done)
  | .rawMessage _ => fun s => (s, .ok .done)
  | .fallback => fun s => (s, .ok .done)

/-- A request that is answered was accepted, and leaves its operation's state with RESULT written and PHASE IDLE. -/
theorem exec_request {i : Instr} (hi : i.isRequest = true) {s t : State} (h : exec i s = .next t) :
    Accepting s ∧ t = (opOf i s).1.finish (opOf i s).2 := by
  cases i <;> simp only [Instr.isRequest, Bool.false_eq_true] at hi <;>
    simp only [exec, execMotion, execHeight, execStop, execTurn, execInit0, execInit1, execInit2, execInit, execRaw,
      execExecute, execEncode, execChecksum, answered_request_iff, answered_requestCommand_iff] at h
  all_goals first | exact h | exact h.2

/-- What the operation behind a request can do. -/
theorem opSpec_of_request {i : Instr} (hi : i.isRequest = true) {s : State} (hf : s.fatal = false) :
    OpSpec s (opOf i s) := by
  cases i <;> simp only [Instr.isRequest, Bool.false_eq_true] at hi
  · exact opSpec_moveMotion hf _ _ _
  · exact opSpec_setHeight hf _
  · exact opSpec_stop hf
  · exact opSpec_turn hf
  · exact opSpec_initStep hf 0
  · exact opSpec_initStep hf 1
  · exact opSpec_initStep hf 2
  · exact opSpec_init hf
  · exact opSpec_sendRaw hf _ _
  · exact opSpec_execute hf _ []
  · exact opSpec_encode hf _
  · exact opSpec_checksum hf _

end Sys2Proof.Machine
end

