-- ==== Sys2Proof/Laws/PerInstr.lean ====
section
/-!
SUPPORT. Statements made of every operation, one lemma per constructor of `Instr`.
-/

/-- Family WordIsCommand: where the encoder lays an operation out as a packed word, the word is the operation's Command, a
valid one, packed element by element (30_encoding.md R71, R73). -/
def Sys2Proof.Laws.WordIsCommand.Statement (i : Sys2Proof.Instr) : Prop :=
  ∀ bs, Sys2Proof.encode i = .word bs →
    ∃ cmd, i.command = some cmd ∧ Sys2Proof.Machine.Valid cmd ∧ cmd.map Sys2Proof.pack8 = bs

namespace Sys2Proof.Laws.WordIsCommand

/-- An operation that has no packed word, or is a message, is never laid out as one. -/
theorem of_no_word {i : Instr} (h : encodeText i ≠ none ∨ encodeWord i = none) : Statement i := by
  intro bs he
  unfold encode at he
  cases ht : encodeText i with
  | some m => simp [ht] at he
  | none => simp [ht, h.resolve_left (by simp [ht])] at he

/-- An operation with a packed word is laid out as its Command, if that is valid whenever the word is its own. -/
theorem of_word {i : Instr} {w : List Byte} {cmd : Command} (hw : encodeWord i = some w) (hc : i.command = some cmd)
    (hv : i.hasOwnWord = true → Machine.Valid cmd ∧ cmd.map pack8 = w) : Statement i := by
  intro bs he
  unfold encode at he
  cases ht : encodeText i with
  | some m => simp [ht] at he
  | none =>
    cases ho : i.hasOwnWord with
    | false => simp [ht, hw, ho] at he
    | true =>
      obtain rfl : w = bs := by simpa [ht, hw, ho] using he
      exact ⟨cmd, hc, hv ho⟩

theorem motion (fwd strafe turn : Int) : Statement (.motion fwd strafe turn) := by
  refine of_word rfl rfl fun h => ?_
  simp only [Instr.hasOwnWord, Bool.and_eq_true, isSignedByte_iff] at h
  obtain ⟨⟨⟨⟨hf, hs⟩, ht⟩, -⟩, -⟩ := h
  exact ⟨by simp [Machine.Valid, hf, hs, ht], rfl⟩

theorem height (h : Int) : Statement (.height h) := by
  refine of_word rfl rfl fun hh => ?_
  have := (isHeight_iff h).mp hh
  exact ⟨by simp [Machine.Valid]; omega, rfl⟩

theorem stop : Statement .stop := of_word rfl rfl fun _ => ⟨by simp [Machine.Valid], rfl⟩
theorem turn : Statement .turn := of_word rfl rfl fun _ => ⟨by simp [Machine.Valid], rfl⟩
theorem init0 : Statement .init0 := of_word rfl rfl fun _ => ⟨by simp [Machine.Valid], rfl⟩
theorem init1 : Statement .init1 := of_word rfl rfl fun _ => ⟨by simp [Machine.Valid], rfl⟩
theorem init2 : Statement .init2 := of_word rfl rfl fun _ => ⟨by simp [Machine.Valid], rfl⟩
theorem init : Statement .init := of_no_word (.inr rfl)

theorem raw (d : Text) (ints : Command) : Statement (.raw d ints) := by
  refine of_word rfl rfl fun h => ?_
  simp only [Instr.hasOwnWord, Bool.and_eq_true, List.all_eq_true, isSignedByte_iff] at h
  exact ⟨h.1.2, rfl⟩

theorem execute (cmd : Command) (d : Text) : Statement (.execute cmd d) := of_no_word (.inr rfl)
theorem encode (cmd : Command) : Statement (.encode cmd) := of_no_word (.inr rfl)
theorem checksum (bytes : List Byte) : Statement (.checksum bytes) := of_no_word (.inr rfl)
theorem reset (h : Int) (d : Nat) : Statement (.reset h d) := of_no_word (.inr rfl)
theorem classify (msg : Text) : Statement (.classify msg) := of_no_word (.inr rfl)
theorem exit : Statement .exit := of_no_word (.inr rfl)
theorem motionMessage (msg : Text) : Statement (.motionMessage msg) := of_no_word (.inr rfl)
theorem heightMessage (msg : Text) : Statement (.heightMessage msg) := of_no_word (.inr rfl)
theorem rawMessage (msg : Text) : Statement (.rawMessage msg) := of_no_word (.inr rfl)
theorem fallback : Statement .fallback := of_no_word (.inr rfl)

end Sys2Proof.Laws.WordIsCommand
end

