-- ==== Sys2Proof/Laws/Relay.lean ====
section
/-!
SUPPORT. What the text front end's operations answer: keywords, fields and operands of a message, the requests a message
makes, and everything a message can do.
-/
namespace Sys2Proof

/-- `contains` is the relation "occurs as a contiguous substring" (R181). -/
theorem contains_iff (m k : Text) : contains m k = true ↔ k <:+: m := by
  induction m with
  | nil => simp [contains]
  | cons c m ih =>
    rw [contains, Bool.or_eq_true, ih, List.isPrefixOf_iff_prefix]
    exact List.infix_cons_iff.symm

theorem splitCommas_ne_nil (t : Text) : splitCommas t ≠ [] := by
  cases t with
  | nil => simp [splitCommas]
  | cons b r => simp only [splitCommas]; split <;> [simp; (split <;> simp)]

namespace Machine

/-! ### Requests of the relay -/

theorem relayDispatch_request {k : MsgKind} {op : State → State × OpResult} {s : State} (h : Accepting s) :
    relayDispatch k (request op s) = .next (((op s).1.finish (op s).2).relayDone k (op s).2) := by
  rw [request_accepting h]; rfl

theorem relayDispatch_requestCommand {k : MsgKind} {op : State → State × OpResult} {s : State} {cmd : Command}
    (hf : s.fits cmd = true) (h : Accepting s) :
    relayDispatch k (requestCommand cmd op s) = .next (((op s).1.finish (op s).2).relayDone k (op s).2) := by
  rw [requestCommand, if_pos hf, relayDispatch_request h]

/-- A request the block refuses is refused to the relay, and the loop makes no turn (R213). -/
theorem relayDispatch_refused {k : MsgKind} {o : Host.Outcome (State × OpResult) Fault Refusal} {r : Refusal}
    (h : o = .refused r) : relayDispatch k o = .refused r := by
  rw [h]; rfl

/-- A Command that does not fit is refused, whatever the operation (R213 c). -/
theorem requestCommand_too_long {cmd : Command} {op : State → State × OpResult} {s : State} (h : s.fits cmd = false) :
    requestCommand cmd op s = .refused .commandTooLong := by
  simp [requestCommand, h]

/-! ### Lowercase letters -/

/-- A character outside the 26 capitals is left alone (R181). -/
theorem lowerChar_of_not_capital {c : Char} (h : ¬ ('A' ≤ c ∧ c ≤ 'Z')) : lowerChar c = c := if_neg h

/-! ### Operands of messages -/

theorem parseField_some {i : Nat} {t : Text} {v : Int} (h : parseInt t = some v) : parseField i t = .ok v := by
  simp [parseField, h]

theorem parseField_none {i : Nat} {t : Text} (h : parseInt t = none) :
    parseField i t = .error (.parse (.notInteger i)) := by
  simp [parseField, h]

theorem parseFields_ok {i : Nat} {fs : List Text} {ints : List Int} (h : fs.map parseInt = ints.map some) :
    parseFields i fs = .ok ints := by
  induction fs generalizing i ints with
  | nil => cases ints <;> simp_all [parseFields]
  | cons f fs ih =>
    cases ints with
    | nil => simp at h
    | cons v vs =>
      simp only [List.map_cons, List.cons.injEq] at h
      simp only [parseFields, parseField_some h.1, ih h.2]

/-- The first field that is no integer is the one reported (R185, R214). -/
theorem parseFields_bad {b k : Nat} {fs : List Text} {t : Text} (hk : fs[k]? = some t) (ht : parseInt t = none)
    (hb : ∀ j u, j < k → fs[j]? = some u → parseInt u ≠ none) :
    parseFields b fs = .error (.parse (.notInteger (b + k))) := by
  induction fs generalizing b k with
  | nil => simp at hk
  | cons f fs ih =>
    cases k with
    | zero => simp at hk; subst hk; simp [parseFields, parseField_none ht]
    | succ k =>
      have h0 := hb 0 f (by omega) (by simp)
      obtain ⟨v, hv⟩ := Option.ne_none_iff_exists'.mp h0
      have := ih (b := b+1) (k := k) (by simpa using hk) (fun j u hj hu => hb (j+1) u (by omega) (by simpa using hu))
      simp only [parseFields, parseField_some hv, this]
      congr 3; omega

theorem motionOperands_ok {msg f0 f1 f2 f3 f4 : Text} {fwd strafe turn : Int}
    (h : splitCommas msg = [f0, f1, f2, f3, f4]) (h1 : parseInt f1 = some 6) (h2 : parseInt f2 = some fwd)
    (h3 : parseInt f3 = some strafe) (h4 : parseInt f4 = some turn) :
    motionOperands msg = .ok (fwd, strafe, turn) := by
  have := parseFields_ok (i := 1) (fs := [f1,f2,f3,f4]) (ints := [6,fwd,strafe,turn]) (by simp [*])
  simp [motionOperands, h, this, Config.opMotion]

theorem heightOperand_ok {msg f0 f1 : Text} {h : Int} (hs : splitCommas msg = [f0, f1]) (hp : parseInt f1 = some h) :
    heightOperand msg = .ok h := by
  simp [heightOperand, hs, parseField_some hp]

theorem rawOperands_ok {msg f0 : Text} {fs : List Text} {ints : Command} (hs : splitCommas msg = f0 :: fs)
    (hn : fs ≠ []) (hp : fs.map parseInt = ints.map some) :
    rawOperands msg = .ok (f0, ints) := by
  obtain ⟨f, fs', rfl⟩ := List.exists_cons_of_ne_nil hn
  simp [rawOperands, hs, parseFields_ok hp]

/-! ### What a front-end error is -/

theorem parseFields_err {i : Nat} {ts : List Text} {e : Err} (h : parseFields i ts = .error e) : ∃ p, e = .parse p := by
  induction ts generalizing i with
  | nil => simp [parseFields] at h
  | cons u us ih =>
    simp only [parseFields, parseField] at h
    split at h
    · next he => split at he <;> simp at he; exact ⟨_, by cases h; exact he.symm⟩
    · split at h
      · next he => cases h; exact ih he
      · simp at h

theorem motionOperands_err {msg : Text} {e : Err} (h : motionOperands msg = .error e) :
    (∃ p, e = Err.parse p) ∨ ∃ v, e = .range .opcode v .opcodeSix := by
  unfold motionOperands at h
  split at h
  · split at h
    · split at h
      · simp at h
      · cases h; exact .inr ⟨_, rfl⟩
    · cases h; exact .inl ⟨_, rfl⟩
    · next he => cases h; exact .inl (parseFields_err he)
  · cases h; exact .inl ⟨_, rfl⟩

theorem heightOperand_err {msg : Text} {e : Err} (h : heightOperand msg = .error e) : ∃ p, e = Err.parse p := by
  unfold heightOperand parseField at h
  split at h
  · split at h <;> cases h; exact ⟨_, rfl⟩
  · cases h; exact ⟨_, rfl⟩

theorem rawOperands_err {msg : Text} {e : Err} (h : rawOperands msg = .error e) : ∃ p, e = Err.parse p := by
  unfold rawOperands at h
  split at h
  · split at h
    · simp at h
    · next he => cases h; exact parseFields_err he
  · cases h; exact ⟨_, rfl⟩

/-! ### What a message can do -/

/-- All a FALLBACK can do: one or two accepted sends. -/
theorem exec_fallback_next {s t : State} (h : exec .fallback s = .next t) :
    s.relay = .running ∧ Accepting s ∧ ∃ x : State × OpResult, OpSpec s x ∧ x.1.curHeight = s.curHeight ∧
      x.1.seqIdx = s.seqIdx ∧ (∀ f v c, x.2 ≠ .err (.range f v c)) ∧
      t = (x.1.finish x.2).relayDone .fallback x.2 := by
  simp only [exec, execFallback, whileRunning_eq_next_iff, relayDispatch_eq_next_iff] at h
  obtain ⟨hr, x, hx, rfl⟩ := h
  unfold fallbackRequests at hx
  by_cases ha : Accepting s
  · rw [request_accepting ha] at hx
    refine ⟨hr, ha, ?_⟩
    have e : turnOp s = ({ Sent s buildTurn with phase := .delay }, sentResult s buildTurn) := by
      rw [turnOp, executeBuilt_valid valid_turn]
    simp only [e, finish_sent, sentResult_isOk] at hx
    cases hs : s.sinkAnswer
    · simp only [hs, beq_self_eq_true, if_true, request_eq_next_iff] at hx
      obtain ⟨ha2, rfl⟩ := hx
      generalize hs1 : ({ Sent s buildTurn with result := some (sentResult s buildTurn) } : State) = s1 at *
      refine ⟨({ Sent s1 buildStop with phase := .delay }, sentResult s1 buildStop), ?_, ?_, ?_, sentResult_not_range _ _, ?_⟩
      · have h1 : OpSpec s (s1, .ok (.hex (hexOf buildTurn))) := by
          have := opSpec_sent ha.1 valid_turn .idle s.seqIdx s.curHeight
          subst hs1
          have e2 : sentResult s buildTurn = .ok (.hex (hexOf buildTurn)) := by simp [sentResult, hs]
          rw [e2] at this
          exact ⟨this.1,this.2,this.3,this.4,this.5,this.6,this.7,this.8,this.9,this.10,this.11,this.12,this.13⟩
        exact h1.trans ha2.1 (opSpec_sent ha2.1 valid_stop .delay s1.seqIdx s1.curHeight) (sentResult_not_range _ _)
      · subst hs1; rfl
      · subst hs1; rfl
      · simp only [stopOp, executeBuilt_valid valid_stop, finish_sent]
    · simp only [hs] at hx
      have hx' : x = ({ Sent s buildTurn with result := some (sentResult s buildTurn) }, sentResult s buildTurn) := by
        have := Host.Outcome.next.inj hx
        exact this.symm
      subst hx'
      refine ⟨({ Sent s buildTurn with phase := .delay }, sentResult s buildTurn), opSpec_sent ha.1 valid_turn .delay s.seqIdx s.curHeight, rfl, rfl, sentResult_not_range _ _, ?_⟩
      simp only [finish_sent]
  · obtain ⟨r, h⟩ := request_refused (op := turnOp) ha
    rw [h] at hx; simp at hx

/-- All a message can do: an error of the front end that changes the relay only, EXIT, or accepted requests to the block. -/
theorem exec_message {i : Instr} (hi : i.isMessage = true) {s t : State} (h : exec i s = .next t) :
    s.relay = .running ∧ ∃ k,
     ((∃ e, ((∃ p, e = Err.parse p) ∨ ∃ v, e = .range .opcode v .opcodeSix) ∧ i ≠ .exit ∧ t = s.relayDone k (.err e)) ∨
      (i = .exit ∧ t = { s.relayDone .exit (.ok .done) with relay := .terminated }) ∨
      (i ≠ .exit ∧ ∃ x : State × OpResult, Accepting s ∧ OpSpec s x ∧ x.1.seqIdx = s.seqIdx ∧
        t = (x.1.finish x.2).relayDone k x.2 ∧
        (x.1.curHeight = s.curHeight ∨
          ∃ hex msg, x.2 = .ok (.hex hex) ∧ 1 ≤ x.1.curHeight ∧ x.1.curHeight ≤ 127 ∧ i = .heightMessage msg ∧
            heightOperand msg = .ok x.1.curHeight))) := by
  have main : ∀ (op : State → State × OpResult) (k : MsgKind) (o : Host.Outcome (State × OpResult) Fault Refusal),
      (∀ x, o = .next x → request op s = .next x) →
      relayDispatch k o = .next t → Accepting s ∧ t = ((op s).1.finish (op s).2).relayDone k (op s).2 := by
    intro op k o ho h
    rw [relayDispatch_eq_next_iff] at h
    obtain ⟨x, hx, rfl⟩ := h
    have := ho x hx
    rw [request_eq_next_iff] at this
    obtain ⟨ha, rfl⟩ := this
    exact ⟨ha, rfl⟩
  cases i <;> simp only [Instr.isMessage, Bool.false_eq_true] at hi
  · simp only [exec, execExit, whileRunning_eq_next_iff] at h
    obtain ⟨hr, ht⟩ := h
    exact ⟨hr, .exit, .inr (.inl ⟨rfl, (Host.Outcome.next.inj ht).symm⟩)⟩
  · next msg =>
    simp only [exec, execMotionMessage, whileRunning_eq_next_iff] at h
    obtain ⟨hr, h⟩ := h
    refine ⟨hr, .motion, ?_⟩
    split at h
    · next e he =>
      refine .inl ⟨e, ?_, by simp, (Host.Outcome.next.inj h).symm⟩
      exact motionOperands_err he
    · next f st u he =>
      obtain ⟨ha, ht⟩ := main _ _ _ (fun x hx => hx) h
      exact .inr (.inr ⟨by simp, _, ha, opSpec_moveMotion ha.1 _ _ _, (executeBuilt_keeps _ _ _).2, ht, .inl (executeBuilt_keeps _ _ _).1⟩)
  · next msg =>
    simp only [exec, execHeightMessage, whileRunning_eq_next_iff] at h
    obtain ⟨hr, h⟩ := h
    refine ⟨hr, .height, ?_⟩
    split at h
    · next e he =>
      refine .inl ⟨e, .inl ?_, by simp, (Host.Outcome.next.inj h).symm⟩
      exact heightOperand_err he
    · next ht0 he =>
      obtain ⟨ha, ht⟩ := main _ _ _ (fun x hx => hx) h
      refine .inr (.inr ⟨by simp, _, ha, opSpec_setHeight ha.1 _, (setHeightOp_keeps _ _).1, ht, ?_⟩)
      obtain h1 | ⟨h1, h2, h3, hex, h4⟩ := (setHeightOp_keeps ht0 s).2
      · exact .inl h1
      · exact .inr ⟨hex, msg, h4, by rw [h1]; exact h2, by rw [h1]; exact h3, rfl, by rw [h1]; exact he⟩
  · next msg =>
    simp only [exec, execRawMessage, whileRunning_eq_next_iff] at h
    obtain ⟨hr, h⟩ := h
    refine ⟨hr, .raw, ?_⟩
    split at h
    · next e he =>
      refine .inl ⟨e, .inl ?_, by simp, (Host.Outcome.next.inj h).symm⟩
      exact rawOperands_err he
    · next d ints he =>
      obtain ⟨ha, ht⟩ := main (sendRawOp d ints) _ _ (fun x hx => ((requestCommand_eq_next_iff _ _ _ _).mp hx).2) h
      exact .inr (.inr ⟨by simp, _, ha, opSpec_sendRaw ha.1 _ _, (executeBuilt_keeps _ _ _).2, ht, .inl (executeBuilt_keeps _ _ _).1⟩)
  · obtain ⟨hr, ha, x, h1, h2, h3, h4, h5⟩ := exec_fallback_next h
    exact ⟨hr, .fallback, .inr (.inr ⟨by simp, x, ha, h1, h3, h5, .inl h2⟩)⟩

end Machine

end Sys2Proof
end

