-- ==== Sys2Proof/Laws/Refusals.lean ====
section
/-!
SUPPORT. Every refusal an operation or a step can answer with (60_exceptions.md R213). The refusal of a read without a value
is not among them: only the host's reads answer with it.
-/
namespace Sys2Proof.Machine

/-- A read of a register that holds a value gives the value (R56). -/
@[simp] theorem readHeld_some {α : Type} (r : Register) (v : α) : readHeld r (some v) = .ok v := rfl

/-- A read of a register that holds no value is refused (R213 e). -/
@[simp] theorem readHeld_none {α : Type} (r : Register) : readHeld (α := α) r none = .error (.noValue r) := rfl

/-- The refusals an operation can answer with. -/
def IsOperationRefusal (r : Refusal) : Prop :=
  r = .sessionFatal ∨ r = .busy ∨ r = .commandTooLong ∨ r = .illegalDefaultHeight ∨ r = .relayTerminated

theorem request_refusal {op : State → State × OpResult} {s : State} {r : Refusal} (h : request op s = .refused r) :
    IsOperationRefusal r := by
  unfold request at h
  split at h
  · cases h; exact .inl rfl
  · split at h <;> cases h
    exact .inr (.inl rfl)

theorem requestCommand_refusal {cmd : Command} {op : State → State × OpResult} {s : State} {r : Refusal}
    (h : requestCommand cmd op s = .refused r) : IsOperationRefusal r := by
  unfold requestCommand at h
  split at h
  · exact request_refusal h
  · cases h; exact .inr (.inr (.inl rfl))

theorem answered_refused_iff (o : Host.Outcome (State × OpResult) Fault Refusal) (r : Refusal) :
    answered o = .refused r ↔ o = .refused r := by
  cases o <;> simp [answered]

theorem relayDispatch_refused_iff (k : MsgKind) (o : Host.Outcome (State × OpResult) Fault Refusal) (r : Refusal) :
    relayDispatch k o = .refused r ↔ o = .refused r := by
  cases o <;> simp [relayDispatch]

theorem whileRunning_refusal {s : State} {o : Host.Outcome State Fault Refusal} {r : Refusal}
    (h : whileRunning s o = .refused r) : o = .refused r ∨ r = .relayTerminated := by
  unfold whileRunning at h
  split at h
  · exact .inl h
  · cases h; exact .inr rfl

theorem fallbackRequests_refusal {s : State} {r : Refusal} (h : fallbackRequests s = .refused r) :
    IsOperationRefusal r := by
  unfold fallbackRequests at h
  split at h
  · split at h
    · exact request_refusal h
    · cases h
  · cases h
  · next hr => cases h; exact request_refusal hr

/-- A message is refused for the reasons of its requests, or because the loop has ended. -/
theorem message_refusal {s : State} {k : MsgKind} {o : Host.Outcome State Fault Refusal} {r : Refusal}
    (h : whileRunning s o = .refused r)
    (ho : (∃ t, o = .next t) ∨ ∃ q, o = relayDispatch k q ∧ (q = .refused r → IsOperationRefusal r)) :
    IsOperationRefusal r := by
  obtain rfl | rfl := whileRunning_refusal h
  · obtain ⟨t, ht⟩ | ⟨q, hq, hr⟩ := ho
    · cases ht
    · exact hr ((relayDispatch_refused_iff k q r).mp hq.symm)
  · simp [IsOperationRefusal]

/-- Everything an operation can be refused with: never the lack of a value in a register. -/
theorem exec_refusal {i : Instr} {s : State} {r : Refusal} (h : exec i s = .refused r) : IsOperationRefusal r := by
  cases i with
  | motion => exact request_refusal ((answered_refused_iff _ _).mp h)
  | height => exact request_refusal ((answered_refused_iff _ _).mp h)
  | stop => exact request_refusal ((answered_refused_iff _ _).mp h)
  | turn => exact request_refusal ((answered_refused_iff _ _).mp h)
  | init0 => exact request_refusal ((answered_refused_iff _ _).mp h)
  | init1 => exact request_refusal ((answered_refused_iff _ _).mp h)
  | init2 => exact request_refusal ((answered_refused_iff _ _).mp h)
  | init => exact request_refusal ((answered_refused_iff _ _).mp h)
  | raw => exact requestCommand_refusal ((answered_refused_iff _ _).mp h)
  | execute => exact requestCommand_refusal ((answered_refused_iff _ _).mp h)
  | encode => exact requestCommand_refusal ((answered_refused_iff _ _).mp h)
  | checksum => exact request_refusal ((answered_refused_iff _ _).mp h)
  | reset =>
    simp only [exec, execReset] at h
    split at h <;> cases h
    simp [IsOperationRefusal]
  | classify => cases h
  | exit => exact message_refusal (k := .exit) h (.inl ⟨_, rfl⟩)
  | motionMessage msg =>
    refine message_refusal (k := .motion) h ?_
    split
    · exact .inl ⟨_, rfl⟩
    · exact .inr ⟨_, rfl, request_refusal⟩
  | heightMessage msg =>
    refine message_refusal (k := .height) h ?_
    split
    · exact .inl ⟨_, rfl⟩
    · exact .inr ⟨_, rfl, request_refusal⟩
  | rawMessage msg =>
    refine message_refusal (k := .raw) h ?_
    split
    · exact .inl ⟨_, rfl⟩
    · exact .inr ⟨_, rfl, requestCommand_refusal⟩
  | fallback => exact message_refusal (k := .fallback) h (.inr ⟨_, rfl, fallbackRequests_refusal⟩)

/-- Everything a step can be refused with: the refusals of its operation, or that its request is no operation. -/
theorem step_refusal {s : State} {r : Refusal} (h : step s = .refused r) :
    IsOperationRefusal r ∨ ∃ e, r = .undecodable e := by
  unfold step at h
  split at h
  · cases h
  · obtain h | rfl := whileRunning_refusal h
    · cases h
    · simp [IsOperationRefusal]
  · split at h
    · exact .inl (exec_refusal h)
    · cases h; exact .inr ⟨_, rfl⟩

/-- No operation and no step is refused because a register holds no value. -/
theorem never_refused_noValue (s : State) (i : Instr) (q : Register) :
    exec i s ≠ .refused (.noValue q) ∧ step s ≠ .refused (.noValue q) := by
  refine ⟨fun h => ?_, fun h => ?_⟩
  · simpa [IsOperationRefusal] using exec_refusal h
  · simpa [IsOperationRefusal] using step_refusal h

end Sys2Proof.Machine
end

