-- ==== Sys2Proof/Laws/Stuff.lean ====
section
/-!
SUPPORT. The blocks and segments of the stuffing: what a short segment, a full block and a zero byte give; and hexadecimal
digits.
-/
namespace Sys2Proof.Machine

/-! ### Segments -/

theorem segments_ne_nil (raw : List Byte) : segments raw ≠ [] := by
  cases raw with
  | nil => simp [segments]
  | cons b r => simp only [segments]; split <;> [simp; (split <;> simp)]

/-- A zero byte ends the first segment. -/
theorem segments_zero (raw : List Byte) : segments (0x00#8 :: raw) = [] :: segments raw := rfl

/-- A byte that is not zero joins the first segment. -/
theorem segments_nonzero {b : Byte} (hb : b ≠ 0x00#8) {raw s : List Byte} {ss : List (List Byte)}
    (h : segments raw = s :: ss) : segments (b :: raw) = (b :: s) :: ss := by
  simp [segments, hb, h]

/-! ### ENCSEG (R116) -/

theorem encSegs_cons (p : TrailingPolicy) (s t : List Byte) (ts : List (List Byte)) :
    encSegs p (s :: t :: ts) = encSeg p s false ++ encSegs p (t :: ts) := rfl

/-- A segment shorter than 254 is one block, whatever the policy. -/
theorem encSeg_short {p : TrailingPolicy} {s : List Byte} {last : Bool} (h : s.length < 254) :
    encSeg p s last = block s := by
  have h1 : s.length / 254 = 0 := Nat.div_eq_of_lt h
  have h2 : s.length % 254 = s.length := Nat.mod_eq_of_lt h
  simp [encSeg, h1, h2, fullBlocks, block]

/-- A full block in front of a segment: its code and its bytes, then the rest of the segment, but for an empty rest at the
end of the input under OMIT. -/
theorem encSeg_full {p : TrailingPolicy} {g s : List Byte} {last : Bool} (h : g.length = 254) :
    encSeg p (g ++ s) last =
      0xff#8 :: g ++ (if s = [] ∧ last = true ∧ p = .omitBlock then [] else encSeg p s last) := by
  have h1 : (g ++ s).length / 254 = s.length / 254 + 1 := by simp [h]
  have h2 : (g ++ s).length % 254 = s.length % 254 := by simp [h]
  have h3 : (g ++ s).take 254 = g := by rw [← h]; simp
  have h4 : (g ++ s).drop 254 = s := by rw [← h]; simp
  have h5 : (g ++ s).drop (254 * (s.length / 254 + 1)) = s.drop (254 * (s.length / 254)) := by
    rw [Nat.mul_add, Nat.add_comm, ← List.drop_drop]; simp [h4]
  simp only [encSeg, h1, h2, h5, fullBlocks, h3, h4]
  by_cases hs : s = []
  · subst hs
    cases last <;> cases p <;> simp [fullBlocks]
  · have : s.length % 254 > 0 ∨ s.length / 254 > 0 := by
      have := List.length_pos_iff.mpr hs; omega
    rw [if_neg (show ¬ (s = [] ∧ last = true ∧ p = TrailingPolicy.omitBlock) from fun h => hs h.1)]
    by_cases hm : s.length % 254 > 0
    · simp [hm]
    · have h6 : s.length / 254 ≠ 0 := by omega
      simp [hm, h6]

/-! ### RENDER (R121) -/

theorem render_cons (b : Byte) (bs : List Byte) :
    render (b :: bs) = hexDigit (highNibble b) :: hexDigit (lowNibble b) :: render bs := by
  simp [render, hexByte]

theorem hexValue_hexDigit : ∀ n < 16, hexValue (hexDigit n) = some n := by decide

end Sys2Proof.Machine
end

