-- ==== Sys2Proof/Tests/Slice0.lean ====
section
/-!
SUPPORT. The model's own tests: expected values from 95_test_vectors.md and from the encodings of spec/, and a witness for
the hypotheses of every statement that has any.
-/
namespace Sys2Proof.Tests

open Sys2Proof Sys2Proof.Machine

/-! ### States to start from -/

/-- The state after a next state, if there is one. -/
def after : Host.Outcome State Fault Refusal → Option State
  | .next s => some s
  | _ => none

/-- The refusal, if there is one. -/
def refusal : Host.Outcome State Fault Refusal → Option Refusal
  | .refused r => some r
  | _ => none

/-- The state after reset, and a sink that gives the answers `as`. -/
def sink (as : List SinkAnswer) : State := { State.reset with sinkInputs := as }

/-- A session in which a hand-over failed. -/
def broken : State := { State.reset with fatal := true }

/-- A machine whose command buffer holds four elements. -/
def small : State := { State.reset with maxLen := some 4 }

/-- The frames handed over, with the sink's answers and the delays between them. -/
def sentBy (i : Instr) (s : State) : Option (List Event) := (after (exec i s)).map (·.txlog)

/-- What the operation returned. -/
def resultOf (i : Instr) (s : State) : Option (Option OpResult) := (after (exec i s)).map (·.result)

/-- What the relay holds of a message's outcome, and whether its loop runs. -/
def relayOf (i : Instr) (s : State) : Option (Option OpResult × RelayState) :=
  (after (exec i s)).map fun t => (t.relayR, t.relay)

/-! ### Ill-formed operations: a message operation of another class (R180, R181) -/

theorem test_wf_motion_message : (Instr.motionMessage "height,60".toList).wf = false ∧
    decode (.direct (.motionMessage "motion,exit".toList)) = .error .notOfItsKind := by decide +kernel
theorem test_wf_height_message : (Instr.heightMessage "height motion,5".toList).wf = false ∧
    decode (.direct (.heightMessage [])) = .error .notOfItsKind := by decide +kernel
theorem test_wf_raw_message : (Instr.rawMessage "16".toList).wf = false ∧
    decode (.direct (.rawMessage "raw height".toList)) = .error .notOfItsKind := by decide +kernel
theorem test_wf_accepts : (Instr.motionMessage "MOTION,6,-50,0,0".toList).wf = true ∧
    (Instr.heightMessage "height".toList).wf = true ∧ (Instr.rawMessage "raw".toList).wf = true := by decide +kernel

/-! ### Words written bit by bit from the formats of 30_encoding.md R71 and R73, element 0 first -/

/-- `[6, 1, 2, 3]`: bytes 06 01 02 03. -/
theorem test_word_motion :
    decodeTableWord 32 0b00000110_00000001_00000010_00000011 = some (.motion 1 2 3) := by decide
/-- `[6, 127, -128, -1]`: bytes 06 7f 80 ff. -/
theorem test_word_motion_bounds :
    decodeTableWord 32 0b00000110_01111111_10000000_11111111 = some (.motion 127 (-128) (-1)) := by decide
/-- `[4, 0, 7, 127]` and `[4, 0, 7, 1]`. -/
theorem test_word_height :
    decodeTableWord 32 0b00000100_00000000_00000111_01111111 = some (.height 127) ∧
    decodeTableWord 32 0b00000100_00000000_00000111_00000001 = some (.height 1) := by decide
/-- `[6, 0, 0, 0]`, the word INIT2 shares (R78), and `[6, 0, 0, 80]`. -/
theorem test_word_stop_turn :
    decodeTableWord 32 0b00000110_00000000_00000000_00000000 = some .stop ∧
    decodeTableWord 32 0b00000110_00000000_00000000_01010000 = some .turn := by decide
/-- `[16]` and `[7, 1]`. -/
theorem test_word_init :
    decodeTableWord 8 0b00010000 = some .init0 ∧ decodeTableWord 16 0b00000111_00000001 = some .init1 := by decide
/-- Words of no typed command are RAW (R83): `[4, 0, 7, 0]`, `[4, 0, 7, -128]`, `[5, 0, 0]` and the empty Command. -/
theorem test_word_raw :
    decodeTableWord 32 0b00000100_00000000_00000111_00000000 = some (.raw [] [4, 0, 7, 0]) ∧
    decodeTableWord 32 0b00000100_00000000_00000111_10000000 = some (.raw [] [4, 0, 7, -128]) ∧
    decodeTableWord 24 0b00000101_00000000_00000000 = some (.raw [] [5, 0, 0]) ∧
    decodeTableWord 0 0 = some (.raw [] []) := by decide
/-- Texts of 95_test_vectors.md section 2.6. -/
theorem test_texts :
    decode (.text "Please EXIT now".toList) = .ok .exit ∧ decode (.text "motion,exit".toList) = .ok .exit ∧
    decode (.text "height,60".toList) = .ok (.heightMessage "height,60".toList) ∧
    decode (.text "height motion,5".toList) = .ok (.motionMessage "height motion,5".toList) ∧
    decode (.text "raw arm,7,1".toList) = .ok (.rawMessage "raw arm,7,1".toList) ∧
    decode (.text "16".toList) = .ok .fallback ∧ decode (.text []) = .ok .fallback := by decide +kernel
/-- Each operation at the request port is read as itself (D3). -/
theorem test_port :
    decode (.direct .init) = .ok .init ∧ decode (.direct .init2) = .ok .init2 ∧
    decode (.direct (.execute [16] [])) = .ok (.execute [16] []) ∧
    decode (.direct (.encode [128])) = .ok (.encode [128]) ∧
    decode (.direct (.checksum [0xff])) = .ok (.checksum [0xff]) ∧
    decode (.direct (.reset 40 1)) = .ok (.reset 40 1) ∧
    decode (.direct (.classify ['a'])) = .ok (.classify ['a']) := by decide

/-! ### CHECKSUM and the codec (95_test_vectors.md sections 1, 2.1 to 2.5) -/

theorem test_checksum_vectors :
    checksum [] = 0x01 ∧ checksum [0xff] = 0x00 ∧ checksum [0xfe] = 0xff ∧ checksum [0xff, 0xff] = 0xff ∧
    checksum [0x80, 0x80] = 0x01 ∧ checksum [0x02, 0x06, 0x01, 0x01, 0x01] = 0x0c ∧
    checksumLiteral [0x02, 0xfd] = 0x00 ∧ checksum (List.replicate 255 0xff) = 0x02 := by decide +kernel
theorem test_pack_vectors : pack8 127 = 0x7f ∧ pack8 (-1) = 0xff ∧ pack8 (-50) = 0xce ∧ pack8 80 = 0x50 := by decide
theorem test_range_vectors :
    rangeCheck [6, 0, 300, -200] = some (.range (.element 2) 300 .signedByte) ∧ rangeCheck [] = none ∧
    rangeCheck [-129] = some (.range (.element 0) (-129) .signedByte) := by decide
theorem test_encode_vectors :
    hexOf [6, 0, 0, 0] = "02060101010c00".toList ∧ hexOf [16] = "02101300".toList ∧
    hexOf [7, 1] = "0307010c00".toList ∧ hexOf [] = "010200".toList ∧ hexOf [6, 0] = "0206010a00".toList ∧
    hexOf [1, 0, 2, 0, 3] = "0201020202030d00".toList ∧ hexOf [-1, -1, -1] = "04ffffff0200".toList := by decide
theorem test_encode_zero_checksum :
    hexOf [-3] = "02fd0000".toList ∧ hexOf [6, -14, 1, 1] = "0506f201010000".toList ∧
    hexOf [6, 100, 100, 44] = "050664642c0000".toList := by decide
theorem test_stuff_253 :
    stuff .omitBlock (List.replicate 253 0x01) = 0xfe :: List.replicate 253 0x01 := by decide +kernel
theorem test_stuff_254 :
    stuff .omitBlock (List.replicate 254 0x01) = 0xff :: List.replicate 254 0x01 ∧
    stuff .emitBlock (List.replicate 254 0x01) = 0xff :: List.replicate 254 0x01 ++ [0x01] := by decide +kernel
theorem test_stuff_255 :
    stuff .omitBlock (List.replicate 255 0x01) = 0xff :: List.replicate 254 0x01 ++ [0x02, 0x01] ∧
    stuff .emitBlock (List.replicate 254 0x01 ++ [0x00, 0x02]) =
      0xff :: List.replicate 254 0x01 ++ [0x01, 0x02, 0x02] := by decide +kernel
theorem test_segment_508 :
    (encSeg .omitBlock (List.replicate 508 0x01) true).length = 510 ∧
    (encSeg .omitBlock (List.replicate 508 0x01) true)[255]? = some 0xff ∧
    (encSeg .emitBlock (List.replicate 508 0x01) true).getLast? = some 0x01 := by decide +kernel
theorem test_unstuff_rejects :
    unstuff [0x00] = none ∧ unstuff [0x03, 0x01] = none ∧ unstuff [0x02, 0x06, 0x01] = some [0x06, 0x00] := by decide

/-! ### One step each (95_test_vectors.md sections 1, 2.4, 2.6 and 4) -/

theorem test_motion : sentBy (.motion (-50) 0 0) (sink [.ok]) =
    some [.tx [0x03, 0x06, 0xce, 0x01, 0x01, 0xda, 0x00] .ok, .gap] := by decide
theorem test_motion_range : resultOf (.motion 300 300 300) (sink [.ok]) =
    some (some (.err (.range .fwd 300 .signedByte))) ∧ sentBy (.motion 0 (-129) 0) (sink [.ok]) = some [] := by decide
theorem test_height : (after (exec (.height 127) (sink [.ok]))).map (·.curHeight) = some 127 ∧
    sentBy (.height 127) (sink [.ok]) =
      some [.tx [0x02, 0x04, 0x03, 0x07, 0x7f, 0x90, 0x00] .ok, .gap] := by decide
theorem test_height_fails : (after (exec (.height 127) (sink [.fail]))).map (fun t => (t.curHeight, t.fatal)) =
    some (1, true) ∧ resultOf (.height 0) (sink []) = some (some (.err (.range .height 0 .height))) := by decide
theorem test_stop : resultOf .stop (sink [.ok]) = some (some (.ok (.hex "02060101010c00".toList))) := by decide
theorem test_turn : resultOf .turn (sink [.ok]) = some (some (.ok (.hex "02060102505c00".toList))) := by decide
theorem test_init0 : resultOf .init0 (sink [.ok]) = some (some (.ok (.hex "02101300".toList))) := by decide
theorem test_init1 : resultOf .init1 (sink [.ok]) = some (some (.ok (.hex "0307010c00".toList))) := by decide
theorem test_init2 : resultOf .init2 (sink [.ok]) = some (some (.ok (.hex "02060101010c00".toList))) := by decide
theorem test_init : sentBy .init (sink [.ok, .ok, .ok]) =
    some [.tx [0x02, 0x10, 0x13, 0x00] .ok, .gap, .tx [0x03, 0x07, 0x01, 0x0c, 0x00] .ok, .gap,
      .tx [0x02, 0x06, 0x01, 0x01, 0x01, 0x0c, 0x00] .ok, .gap] := by decide
theorem test_init_fails : (after (exec .init (sink [.ok, .fail]))).map (fun t => (t.seqIdx, t.fatal, t.txlog.length)) =
    some (some 1, true, 4) := by decide
theorem test_raw : (after (exec (.raw ['h'] [4, 0, 7, 100]) (sink [.ok]))).map (fun t => (t.curHeight, t.txlog)) =
    some (1, [.tx [0x02, 0x04, 0x03, 0x07, 0x64, 0x75, 0x00] .ok, .gap]) := by decide
theorem test_raw_range : resultOf (.raw ['x'] [6, 0, 128]) (sink []) =
    some (some (.err (.range (.element 2) 128 .signedByte))) := by decide
theorem test_execute : resultOf (.execute [-128] []) (sink [.ok]) =
    some (some (.ok (.hex "02808300".toList))) := by decide
theorem test_execute_fails : resultOf (.execute [] []) (sink [.fail]) = some (some (.err .transport)) := by decide
theorem test_encode : (after (exec (.encode [6, 127, 117, 0]) (sink []))).map (fun t => (t.hex, t.chk, t.txlog)) =
    some (some "04067f75010000".toList, some 0x00, []) := by decide
theorem test_encode_range : (after (exec (.encode [6, 0, 128]) (sink []))).map (fun t => (t.frame, t.hex, t.cmd)) =
    some (none, none, some [6, 0, 128]) := by decide
theorem test_checksum : resultOf (.checksum [0x01, 0x02, 0x03]) (sink []) = some (some (.ok (.byte 0x07))) := by decide
theorem test_reset : (after (exec (.reset 40 9) broken)).map (fun t => (t.curHeight, t.fatal, t.cfgDelay)) =
    some (40, false, 9) := by decide
theorem test_reset_refused : refusal (exec (.reset 0 9) broken) = some .illegalDefaultHeight ∧
    refusal (exec (.reset 128 9) broken) = some .illegalDefaultHeight := by decide
theorem test_classify : (after (exec (.classify "motion,exit".toList) broken)).map (·.relayKind) =
    some (some .exit) := by decide +kernel
theorem test_exit : (after (exec .exit (sink [.ok]))).map (fun t => (t.relay, t.txlog)) =
    some (.terminated, []) := by decide
theorem test_motion_message : sentBy (.motionMessage "motion,6,0,0,10".toList) (sink [.ok]) =
    some [.tx [0x02, 0x06, 0x01, 0x02, 0x0a, 0x16, 0x00] .ok, .gap] := by decide
theorem test_motion_message_errors :
    relayOf (.motionMessage "motion,6,a,0,0".toList) (sink []) =
      some (some (.err (.parse (.notInteger 2))), .running) ∧
    relayOf (.motionMessage "motion,7,0,0,0".toList) (sink []) =
      some (some (.err (.range .opcode 7 .opcodeSix)), .running) := by decide
theorem test_height_message :
    (after (exec (.heightMessage "height,60".toList) (sink [.ok]))).map (fun t => (t.curHeight, t.frame)) =
      some (60, some [0x02, 0x04, 0x03, 0x07, 0x3c, 0x4d, 0x00]) := by decide
theorem test_height_message_errors :
    relayOf (.heightMessage "height,tall".toList) (sink []) =
      some (some (.err (.parse (.notInteger 1))), .running) ∧
    relayOf (.heightMessage "height,128".toList) (sink []) =
      some (some (.err (.range .height 128 .height)), .running) := by decide
theorem test_raw_message : sentBy (.rawMessage "raw,-3".toList) (sink [.ok]) =
    some [.tx [0x02, 0xfd, 0x00, 0x00] .ok, .gap] := by decide
theorem test_raw_message_errors :
    relayOf (.rawMessage "raw".toList) (sink []) = some (some (.err (.parse (.atLeast 2))), .running) ∧
    relayOf (.rawMessage "raw,300".toList) (sink []) =
      some (some (.err (.range (.element 0) 300 .signedByte)), .running) := by decide
theorem test_fallback : sentBy .fallback (sink [.ok, .ok]) =
    some [.tx [0x02, 0x06, 0x01, 0x02, 0x50, 0x5c, 0x00] .ok, .gap,
      .tx [0x02, 0x06, 0x01, 0x01, 0x01, 0x0c, 0x00] .ok, .gap] := by decide
theorem test_fallback_fails : relayOf .fallback (sink [.fail]) = some (some (.err .transport), .terminated) ∧
    (sentBy .fallback (sink [.fail])).map List.length = some 2 := by decide
theorem test_refusals :
    refusal (exec (.height 50) broken) = some .sessionFatal ∧
    refusal (exec .stop { State.reset with phase := .write }) = some .busy ∧
    refusal (exec (.raw [] [1, 2, 3, 4, 5]) small) = some .commandTooLong := by decide
theorem test_codes : Err.code (.range .fwd 0 .signedByte) = 1 ∧ Err.code (.parse (.exactly 5)) = 2 ∧
    Err.code .transport = 3 ∧ Err.code .encoding = 4 ∧ OpResult.code (.ok .done) = 0 := by decide

/-! ### Steps -/

theorem test_step_runs_placed_word :
    (after (step ((sink [.ok]).withFetchWord 32 0x06000050))).map (fun t => (t.frame, t.requests)) =
      some (some [0x02, 0x06, 0x01, 0x02, 0x50, 0x5c, 0x00], []) := by decide
theorem test_step_idle : step State.reset = .next State.reset := rfl
theorem test_step_receive_fails :
    (after (step { State.reset with requests := [.receiveFails] })).map (fun t => (t.relay, t.result)) =
      some (.terminated, none) := by decide
theorem test_step_ended_relay :
    refusal (step { State.reset with relay := .terminated, requests := [.text ['r', 'a', 'w']] }) =
      some .relayTerminated := by decide
theorem test_host_reads :
    State.reset.memRead .hex 0 2 = .error (.noValue .hex) ∧
    State.reset.memRead .initrom 1 2 = .ok [.command [7, 1], .command [6, 0, 0, 0]] ∧
    State.reset.memRead .txlog 0 1 = .error (.outOfRange .txlog 0) ∧ State.reset.readLen = .error (.noValue .len) ∧
    State.reset.readResult = .error (.noValue .result) := by decide

/-! ### Witnesses: states and operands that meet the hypotheses of the statements, at the ends of their ranges -/

theorem accepting_sink (as : List SinkAnswer) : Accepting (sink as) := ⟨rfl, rfl⟩

theorem witness_ChecksumRequestReturnsSumPlusOne : Accepting State.reset ∧ Accepting small := ⟨⟨rfl, rfl⟩, ⟨rfl, rfl⟩⟩
theorem witness_ChecksumArithmeticLaws : [0x01#8, 0x02#8].Perm [0x02#8, 0x01#8] := by decide
theorem witness_ChecksumZeroExactlyAtSum255 :
    ([0xff#8].map BitVec.toNat).sum % 256 = 255 ∧ ((stuffedOf [-3]).map BitVec.toNat).sum % 256 = 255 := by decide
theorem witness_PackIsTwosComplement :
    (-128 ≤ (-128 : Int) ∧ (127 : Int) ≤ 127) ∧ (∃ v ∈ [0, 128], v < -128 ∨ (127 : Int) < v) ∧
    (∃ v ∈ [-129], v < -128 ∨ (127 : Int) < v) ∧ ∃ enc, codecWith .emitBlock [-128, 127] = .ok enc :=
  ⟨by decide, by decide, by decide, _, rfl⟩
theorem valid_ends : Valid [-128, 127, 0] := by unfold Valid; decide
theorem not_valid_ends : ¬ Valid [128] ∧ ¬ Valid [-129] ∧ ¬ Valid [0, 128] := by unfold Valid; decide
theorem witness_EncodeSucceedsExactlyOnSignedBytes :
    Valid [-128, 127, 0] ∧ ¬ Valid [0, 128] ∧ 0 < 1 ∧ [(0 : Int), 128][0]? = some 0 :=
  ⟨valid_ends, not_valid_ends.2.2, by decide, rfl⟩
theorem witness_StuffedBytesZeroFreeAndBounded :
    ∀ seg ∈ segments (0x00#8 :: List.replicate 253 0x01#8), seg.length < 254 := by decide +kernel
theorem witness_StuffedShapes :
    (0x00#8 ∉ List.replicate 253 0x01#8) ∧ (List.replicate 253 0x01#8).length ≤ 253 ∧
    (0x00#8 ∉ List.replicate 254 0x01#8) ∧ (List.replicate 254 0x01#8).length = 254 ∧ 0xff#8 ≠ 0x00#8 := by
  decide +kernel
theorem witness_StuffingBySegmentsAgrees : ∀ seg ∈ segments [0x01#8, 0x00#8, 0x02#8, 0x00#8], seg.length < 254 := by decide
theorem witness_EncodingIsInjective :
    Valid [-128, 127, 0] ∧ frameOf [-128, 127, 0] = frameOf [-128, 127, 0] ∧ hexOf [16] = hexOf [16] :=
  ⟨valid_ends, rfl, rfl⟩
theorem witness_FrameShape : (List.replicate 253 (1 : Int)).length ≤ 253 := by decide +kernel
theorem witness_EncodeFillsBuffers :
    Accepting small ∧ small.fits [1, 2, 3, 4] = true ∧ Valid [1, 2, 3, 4] ∧ (sink []).fits [] = true ∧ Valid [] :=
  ⟨⟨rfl, rfl⟩, rfl, by unfold Valid; decide, rfl, by unfold Valid; decide⟩
theorem witness_EncodeRejectsOutOfRange :
    Accepting small ∧ small.fits [0, 0, 0, 128] = true ∧ ¬ Valid [0, 0, 0, 128] ∧ ¬ Valid [-129] :=
  ⟨⟨rfl, rfl⟩, rfl, by unfold Valid; decide, not_valid_ends.2.1⟩
theorem witness_EncodeReadsNoState :
    (∃ t, exec (.encode [16]) State.reset = .next t) ∧ ∃ t, exec (.encode [16]) small = .next t := ⟨⟨_, rfl⟩, ⟨_, rfl⟩⟩
theorem witness_MotionSendsItsCommand :
    Accepting (sink [.fail]) ∧ (-128 : Int) ≤ -128 ∧ (-128 : Int) ≤ 127 ∧ (-128 : Int) ≤ 127 ∧ (127 : Int) ≤ 127 :=
  ⟨accepting_sink _, by decide⟩
theorem witness_MotionRejectsOutOfRange :
    Accepting (sink []) ∧ ((128 : Int) < -128 ∨ 127 < (128 : Int)) ∧ ((-129 : Int) < -128 ∨ 127 < (-129 : Int)) ∧
    ((-128 : Int) ≤ 127 ∧ (127 : Int) ≤ 127) := ⟨accepting_sink _, by decide, by decide, by decide⟩
theorem witness_HeightSendsThenUpdates :
    Accepting (sink [.ok]) ∧ ((1 : Int) ≤ 1 ∧ (1 : Int) ≤ 127) ∧ ((1 : Int) ≤ 127 ∧ (127 : Int) ≤ 127) :=
  ⟨accepting_sink _, by decide, by decide⟩
theorem witness_HeightRejectsOutOfRange :
    Accepting (sink []) ∧ ((0 : Int) < 1 ∨ 127 < (0 : Int)) ∧ ((128 : Int) < 1 ∨ 127 < (128 : Int)) :=
  ⟨accepting_sink _, by decide, by decide⟩
theorem witness_StopAndTurnSendFixedCommands : Accepting (sink [.ok]) := accepting_sink _
theorem witness_RawAndExecuteSendVerbatim :
    Accepting small ∧ small.fits [4, 0, 7, 0] = true ∧ Valid [4, 0, 7, 0] ∧ (sink []).fits [-128, 127, 0] = true ∧
    Valid [-128, 127, 0] := ⟨⟨rfl, rfl⟩, rfl, by unfold Valid; decide, rfl, valid_ends⟩
theorem witness_RawAndExecuteRejectOutOfRange :
    Accepting small ∧ small.fits [0, 128] = true ∧ ¬ Valid [0, 128] := ⟨⟨rfl, rfl⟩, rfl, not_valid_ends.2.2⟩
theorem witness_InitSendsThreeInOrder :
    Accepting (sink [.ok, .ok, .ok]) ∧ (sink [.ok, .ok, .ok]).sinkAnswer = .ok ∧
    (Sent (sink [.ok, .ok, .ok]) [16]).sinkAnswer = .ok ∧
    (Sent (Sent (sink [.ok, .ok, .ok]) [16]) [7, 1]).sinkAnswer = .ok := ⟨accepting_sink _, rfl, rfl, rfl⟩
theorem witness_InitAbortsAtFirstFailure :
    (sink [.fail]).sinkAnswer = .fail ∧
    ((sink [.ok, .fail]).sinkAnswer = .ok ∧ (Sent (sink [.ok, .fail]) [16]).sinkAnswer = .fail) ∧
    ((sink [.ok, .ok, .fail]).sinkAnswer = .ok ∧ (Sent (sink [.ok, .ok, .fail]) [16]).sinkAnswer = .ok ∧
      (Sent (Sent (sink [.ok, .ok, .fail]) [16]) [7, 1]).sinkAnswer = .fail) :=
  ⟨rfl, ⟨rfl, rfl⟩, rfl, rfl, rfl⟩
theorem witness_InitStepsSendTheirCommand : Accepting (sink [.ok]) ∧ Accepting (sink [.fail]) :=
  ⟨accepting_sink _, accepting_sink _⟩
theorem witness_TypedFrameShapes :
    ((1 : Int) ≤ 1 ∧ (1 : Int) ≤ 127) ∧ ((1 : Int) ≤ 127 ∧ (127 : Int) ≤ 127) ∧
    stuffedOf [6, -128, 127, 0] = [0x04, 0x06, 0x80, 0x7f, 0x01] ∧
    stuffedOf [6, 0, 0, -1] = [0x02, 0x06, 0x01, 0x02, 0xff] := by decide
theorem witness_TypedKindsNeverFailInCodec :
    buildMotion 127 (-128) 0 = .ok [6, 127, -128, 0] ∧ buildHeight 1 = .ok [4, 0, 7, 1] ∧
    buildHeight 127 = .ok [4, 0, 7, 127] ∧ buildMotion 0 (-129) 0 = .error (.range .strafe (-129) .signedByte) ∧
    buildHeight 128 = .error (.range .height 128 .height) := ⟨rfl, rfl, rfl, rfl, rfl⟩
theorem witness_RawHeightDoesNotUpdateHeight :
    Accepting (sink [.ok]) ∧ (sink [.ok]).fits [4, 0, 7, 127] = true ∧ (sink [.ok]).sinkAnswer = .ok ∧
    (∃ t, exec (.raw [] [4, 0, 7, 127]) (sink [.ok]) = .next t) ∧ ∃ u, exec (.height 127) (sink [.ok]) = .next u :=
  ⟨accepting_sink _, rfl, rfl, ⟨_, rfl⟩, _, rfl⟩
theorem witness_NotAcceptingRefusesRequests :
    Instr.stop.isRequest = true ∧ Instr.fallback.reachesBlock ∧
    (Instr.motionMessage "motion,6,-128,127,0".toList).reachesBlock ∧
    (Instr.heightMessage "height,127".toList).reachesBlock ∧ (Instr.rawMessage "raw,300".toList).reachesBlock ∧
    broken.relay = .running ∧ broken.fatal = true ∧ ({ State.reset with phase := .write } : State).phase ≠ .idle :=
  ⟨rfl, trivial, ⟨"motion".toList, ['6'], "-128".toList, "127".toList, ['0'], -128, 127, 0, by decide +kernel⟩,
    ⟨"height".toList, "127".toList, 127, by decide +kernel⟩,
    ⟨"raw".toList, ["300".toList], [300], by decide +kernel⟩, rfl, rfl, by decide⟩
theorem witness_TooLongCommandRefused :
    small.maxLen = some 4 ∧ 4 < [(1 : Int), 2, 3, 4, 5].length ∧ small.relay = .running ∧
    splitCommas "raw,1,2,3,4,5".toList = "raw".toList :: [['1'], ['2'], ['3'], ['4'], ['5']] ∧
    [['1'], ['2'], ['3'], ['4'], ['5']].map parseInt = [(1 : Int), 2, 3, 4, 5].map some := by decide +kernel
theorem witness_RangeErrorLeavesSessionAlone : ∃ t, Instr.isRequest (.height 128) = true ∧
    exec (.height 128) (sink []) = .next t ∧ t.result = some (.err (.range .height 128 .height)) := ⟨_, rfl, rfl, rfl⟩
theorem witness_EncodingErrorNeverReturned :
    (∃ t, exec .exit { State.reset with result := some (.err .encoding) } = .next t ∧
      t.result = some (.err .encoding)) ∧
    (∃ t, exec (.checksum []) { State.reset with relayR := some (.err .encoding) } = .next t ∧
      t.relayR = some (.err .encoding)) ∧
    ∃ t, exec .exit { State.reset with result := some (.err (.parse (.exactly 5))) } = .next t ∧
      t.result = some (.err (.parse (.exactly 5))) := ⟨⟨_, rfl, rfl⟩, ⟨_, rfl, rfl⟩, _, rfl, rfl⟩
theorem witness_HeightChangesOnlyOnSuccess : ∃ t, exec (.height 127) (sink [.ok]) = .next t ∧ t.curHeight = 127 :=
  ⟨_, rfl, rfl⟩
theorem witness_FatalOnlyClearedByReset :
    (∃ t, exec (.reset 127 0) broken = .next t ∧ broken.fatal = true ∧ t.fatal = false) ∧
    ∃ t, exec .stop (sink [.fail]) = .next t ∧ (sink [.fail]).fatal = false ∧ t.fatal = true :=
  ⟨⟨_, rfl, rfl, rfl⟩, _, rfl, rfl, rfl⟩
theorem witness_LogOnlyGrows :
    (∃ t, exec .stop (sink [.ok]) = .next t) ∧ ∃ t, exec (.reset 1 0) broken = .next t := ⟨⟨_, rfl⟩, _, rfl⟩
theorem witness_LogSpacesHandOvers :
    LogOk [.tx (frameOf [16]) .ok, .gap, .tx (frameOf [7, 1]) .fail, .gap] true ∧ 0 < 2 :=
  ⟨⟨⟨[16], by unfold Valid; decide, rfl⟩, ⟨[7, 1], by unfold Valid; decide, rfl⟩, rfl⟩, by decide⟩
theorem witness_StepKeepsInvariant :
    Inv { sink [.fail] with requests := [.direct .stop] } ∧
    ∃ t, step { sink [.fail] with requests := [.direct .stop] } = .next t :=
  ⟨⟨rfl, by decide, by decide, .inl ⟨rfl, rfl, rfl, rfl, rfl⟩, rfl⟩, _, rfl⟩
theorem witness_ResetStartsSession :
    ((1 : Int) ≤ 1 ∧ (127 : Int) ≤ 127) ∧ ((0 : Int) < 1 ∨ 127 < (0 : Int)) ∧ ((128 : Int) < 1 ∨ 127 < (128 : Int)) ∧
    ∃ t, broken.fatal = true ∧ exec (.reset 1 0) broken = .next t ∧ t.fatal = false :=
  ⟨by decide, by decide, by decide, _, rfl, rfl, rfl⟩
theorem witness_ResetLeavesInputsAlone : ∃ t, exec (.reset 127 5) broken = .next t := ⟨_, rfl⟩
theorem witness_ClassifyTakesFirstKeyword :
    ('Z', 'z') ∈ List.zip "ABCDEFGHIJKLMNOPQRSTUVWXYZ".toList "abcdefghijklmnopqrstuvwxyz".toList ∧
    '@' ∉ "ABCDEFGHIJKLMNOPQRSTUVWXYZ".toList ∧ '[' ∉ "ABCDEFGHIJKLMNOPQRSTUVWXYZ".toList := by decide +kernel
theorem witness_ExitEndsRelayOnly : broken.relay = .running := rfl
theorem witness_MotionMessageSends :
    (sink [.ok]).relay = .running ∧ Accepting (sink [.ok]) ∧
    splitCommas "motion,6,-128,127,0".toList =
      ["motion".toList, ['6'], "-128".toList, "127".toList, ['0']] ∧
    parseInt ['6'] = some 6 ∧ parseInt "-128".toList = some (-128) ∧ parseInt "127".toList = some 127 ∧
    parseInt ['0'] = some 0 :=
  ⟨rfl, accepting_sink _, by decide +kernel, by decide +kernel, by decide +kernel, by decide +kernel, by decide +kernel⟩
theorem witness_MotionMessageErrors :
    (sink []).relay = .running ∧ (splitCommas "motion,6,1,2".toList).length ≠ 5 ∧
    ((splitCommas "motion,6,a,0,0".toList).length = 5 ∧ (splitCommas "motion,6,a,0,0".toList)[2]? = some ['a'] ∧
      parseInt ['a'] = none ∧ (splitCommas "motion,6,a,0,0".toList)[1]? = some ['6'] ∧ parseInt ['6'] ≠ none) ∧
    (splitCommas "motion,7,0,0,0".toList = ["motion".toList, ['7'], ['0'], ['0'], ['0']] ∧ parseInt ['7'] = some 7) := by
  decide +kernel
theorem witness_HeightMessageSends :
    (sink []).relay = .running ∧ Accepting (sink []) ∧
    (splitCommas "height,1".toList = ["height".toList, ['1']] ∧ parseInt ['1'] = some 1) ∧
    parseInt "127".toList = some 127 ∧ (splitCommas "height".toList).length ≠ 2 ∧
    (splitCommas "height,tall".toList = ["height".toList, "tall".toList] ∧ parseInt "tall".toList = none) :=
  ⟨rfl, accepting_sink _, by decide +kernel, by decide +kernel, by decide +kernel, by decide +kernel⟩
theorem witness_RawMessageSends :
    (sink []).relay = .running ∧ Accepting (sink []) ∧ (sink []).fits [7, 1] = true ∧ Valid [7, 1] ∧
    (splitCommas "raw arm,7,1".toList = "raw arm".toList :: [['7'], ['1']] ∧
      [['7'], ['1']].map parseInt = [(7 : Int), 1].map some) ∧
    (splitCommas "raw".toList).length < 2 ∧
    ((splitCommas "raw,7,x".toList)[2]? = some ['x'] ∧ parseInt ['x'] = none ∧
      (splitCommas "raw,7,x".toList)[1]? = some ['7'] ∧ parseInt ['7'] ≠ none) :=
  ⟨rfl, accepting_sink _, rfl, by unfold Valid; decide, by decide +kernel, by decide +kernel, by decide +kernel⟩
theorem witness_MessageOutOfRangeRejected :
    (sink []).relay = .running ∧ Accepting (sink []) ∧
    (splitCommas "motion,6,128,0,0".toList = ["motion".toList, ['6'], "128".toList, ['0'], ['0']] ∧
      parseInt "128".toList = some 128 ∧ ((128 : Int) < -128 ∨ 127 < (128 : Int))) ∧
    (splitCommas "motion,6,127,-129,0".toList = ["motion".toList, ['6'], "127".toList, "-129".toList, ['0']] ∧
      parseInt "127".toList = some 127 ∧ (-128 : Int) ≤ 127 ∧ ((-129 : Int) < -128 ∨ 127 < (-129 : Int))) ∧
    (splitCommas "motion,6,-128,0,128".toList = ["motion".toList, ['6'], "-128".toList, ['0'], "128".toList] ∧
      parseInt "-128".toList = some (-128) ∧ (-128 : Int) ≤ -128) ∧
    (splitCommas "height,0".toList = ["height".toList, ['0']] ∧ parseInt ['0'] = some 0) ∧
    (splitCommas "raw,-129".toList = ["raw".toList, "-129".toList] ∧ parseInt "-129".toList = some (-129)) ∧
    Valid ([(-129 : Int)].take 0) :=
  ⟨rfl, accepting_sink _, by decide +kernel, by decide +kernel, by decide +kernel, by decide +kernel, by decide +kernel,
    by unfold Valid; decide⟩
theorem witness_FallbackTurnsThenStops :
    (sink [.ok]).relay = .running ∧ Accepting (sink [.ok]) ∧ (sink [.ok]).sinkAnswer = .ok ∧
    Accepting (sink [.fail]) ∧ (sink [.fail]).sinkAnswer = .fail := ⟨rfl, accepting_sink _, rfl, accepting_sink _, rfl⟩
theorem witness_RelayRunsOnAfterErrors :
    Instr.exit.isMessage = true ∧ (∃ t, exec .exit State.reset = .next t) ∧
    ({ State.reset with relay := .terminated } : State).relay = .terminated := ⟨rfl, ⟨_, rfl⟩, rfl⟩
theorem witness_ParsingPrimitives : ∀ c ∈ ['t', '-', ' '], ¬ ('0' ≤ c ∧ c ≤ '9') := by
  intro c hc; fin_cases hc <;> decide
theorem witness_RequestFrame :
    (Instr.isRequest (.encode [16]) = true ∧ ∃ t, exec (.encode [16]) State.reset = .next t) ∧
    (Instr.isRequest (.checksum []) = true ∧ ∃ t, exec (.checksum []) State.reset = .next t) ∧
    (Instr.stop.isRequest = true ∧ Instr.stop ∉ [Instr.init, .init0, .init1, .init2] ∧
      ∃ t, exec .stop State.reset = .next t) := ⟨⟨rfl, _, rfl⟩, ⟨rfl, _, rfl⟩, rfl, by decide, _, rfl⟩
theorem witness_FrontEndFrame :
    (∃ t, exec (.classify []) State.reset = .next t) ∧
    ∃ t, Instr.isMessage (.rawMessage ['r', 'a', 'w']) = true ∧
      exec (.rawMessage ['r', 'a', 'w']) State.reset = .next t ∧ t.relayR = some (.err (.parse (.atLeast 2))) :=
  ⟨⟨_, rfl⟩, _, rfl, rfl, rfl⟩
theorem witness_StepRunsDecodedRequest :
    decode (.word [0x06, 0x00, 0x00, 0x00]) = .ok .stop ∧ decode (.direct (.reset 40 1)) = .ok (.reset 40 1) := by decide
theorem witness_StepWithoutOperation :
    State.reset.requests = [] ∧ State.reset.relay = .running ∧ Instr.wf (.rawMessage []) = false := by decide
theorem witness_DecodeEncodeAgree :
    Instr.wf (.motion 200 0 0) = true ∧ Instr.wf (.raw ['d'] []) = true ∧
    Instr.wf (.heightMessage "Height 7".toList) = true := by decide +kernel
/-- A state in which every register and buffer holds a value: that after an accepted STOP. -/
theorem witness_HostReads_values : ∃ t c rb st fr hx r, exec .stop (sink [.ok]) = .next t ∧ t.cmd = some c ∧
    t.rawb = some rb ∧ t.stuffed = some st ∧ t.frame = some fr ∧ t.hex = some hx ∧ t.result = some r :=
  ⟨_, _, _, _, _, _, _, rfl, rfl, rfl, rfl, rfl, rfl, rfl⟩
/-- Ranges that end at, and one past, the three entries of INITROM; a range of none beyond them. -/
theorem witness_HostReads_ranges : State.reset.space .initrom = .ok (initRom.map .command) ∧
    2 + 1 ≤ (initRom.map Elem.command).length ∧ ((initRom.map Elem.command).length < 2 + 2 ∧ 0 < 2) ∧
    State.reset.memRead .initrom 4 0 = .ok [] := ⟨rfl, by decide, by decide, by decide⟩
theorem witness_HostReadsRefuseWithoutValue :
    State.reset.cmd = none ∧ State.reset.rawb = none ∧ State.reset.stuffed = none ∧ State.reset.frame = none ∧
    State.reset.hex = none ∧ State.reset.result = none := ⟨rfl, rfl, rfl, rfl, rfl, rfl⟩

end Sys2Proof.Tests
end

section
/-!
Obligation O5: packing is two's complement on SignedBytes and is applied to nothing else (R73).
-/
namespace Sys2Proof.Machine

/-- The two cases of R73's `v mod 256` on SignedBytes. -/
theorem emod_256_eq_ite {v : Int} (h : -128 ≤ v ∧ v ≤ 127) : v % 256 = if 0 ≤ v then v else v + 256 := by
  split <;> omega

theorem not_valid_of_exists_out_of_range {cmd : Command} (h : ∃ v ∈ cmd, v < -128 ∨ 127 < v) : ¬ Valid cmd := by
  obtain ⟨v, hmem, hout⟩ := h
  intro hvalid
  have hin := hvalid v hmem
  omega

/-- ENCODE answers with buffers on valid Commands only, and the buffers are those of its stages (R110, R112). -/
theorem codecWith_eq_ok_iff (p : TrailingPolicy) (cmd : Command) (enc : Encoded) :
    codecWith p cmd = .ok enc ↔ Valid cmd ∧ enc = encodeStages p cmd := by
  by_cases hvalid : Valid cmd
  · simp [codecWith_valid p hvalid, hvalid, eq_comm]
  · obtain ⟨i, v, herr, -⟩ := codecWith_invalid p hvalid
    simp [herr, hvalid]

/-- RAWB is the packed Command under both trailing policies (R113). -/
theorem encodeStages_raw_eq_map_pack8 (p : TrailingPolicy) (cmd : Command) :
    (encodeStages p cmd).raw = cmd.map pack8 := rfl

/-- Settles O5: the arithmetic of `pack8` on SignedBytes, and ENCODE's RAWB as the packed elements of a valid Command. -/
theorem packIsTwosComplement : Obligations.PackIsTwosComplement := by
  refine ⟨fun v hlo hhi => ?_, by decide, fun p cmd hout => ?_, fun p cmd enc henc => ?_⟩
  · have hv : -128 ≤ v ∧ v ≤ 127 := ⟨hlo, hhi⟩
    exact ⟨pack8_toNat v, (pack8_toNat v).trans (emod_256_eq_ite hv), sext8_pack8 hv⟩
  · obtain ⟨i, v, herr, -⟩ := codecWith_invalid p (not_valid_of_exists_out_of_range hout)
    exact ⟨_, herr⟩
  · obtain ⟨-, rfl⟩ := (codecWith_eq_ok_iff p cmd enc).mp henc
    rw [encodeStages_raw_eq_map_pack8]
    exact ⟨List.length_map _, fun i => List.getElem?_map⟩

end Sys2Proof.Machine
end

section
/-!
Obligations O2 and O3: the literal form of the checksum (R101) and its arithmetic laws (R102).
-/
namespace Sys2Proof.Machine

/-! ### The literal form (R101) -/

/-- R101's key step: the exclusive or touches bit 8 only, which a reduction modulo 256 drops. -/
theorem xor_256_mod_256 (n : Nat) : (n ^^^ 256) % 256 = n % 256 := by
  have hmod : (n ^^^ 2 ^ 8) % 2 ^ 8 = (n % 2 ^ 8) ^^^ (2 ^ 8 % 2 ^ 8) := Nat.xor_mod_two_pow
  simpa using hmod

theorem checksumLiteral_toNat (bs : List Byte) : (checksumLiteral bs).toNat = (byteSum bs + 1) % 256 := by
  have hxor := xor_256_mod_256 (byteSum bs % 256)
  simp only [checksumLiteral, BitVec.toNat_ofNat]
  omega

theorem checksumLiteral_eq_checksum (bs : List Byte) : checksumLiteral bs = checksum bs :=
  BitVec.eq_of_toNat_eq ((checksumLiteral_toNat bs).trans (checksum_toNat bs).symm)

/-- Settles O2: both forms have the value that `checksum_toNat` gives, because the exclusive or vanishes modulo 256. -/
theorem checksumLiteralEqualsChecksum : Obligations.ChecksumLiteralEqualsChecksum :=
  fun bs => ⟨checksumLiteral_eq_checksum bs, checksumLiteral_toNat bs⟩

/-! ### The arithmetic laws (R102) -/

@[simp] theorem byteSum_nil : byteSum [] = 0 := rfl

@[simp] theorem byteSum_cons (b : Byte) (bs : List Byte) : byteSum (b :: bs) = b.toNat + byteSum bs :=
  List.sum_cons

theorem byteSum_eq_of_perm {a b : List Byte} (h : a.Perm b) : byteSum a = byteSum b :=
  (h.map BitVec.toNat).sum_eq

theorem checksum_append_toNat (a b : List Byte) :
    (checksum (a ++ b)).toNat = ((checksum a).toNat + byteSum b) % 256 := by
  rw [checksum_toNat, checksum_toNat, byteSum_append]
  omega

theorem checksum_eq_of_perm {a b : List Byte} (h : a.Perm b) : checksum a = checksum b := by
  unfold checksum
  rw [byteSum_eq_of_perm h]

/-- An 8-bit accumulator that wraps holds the sum modulo 256, from whatever value `acc` it starts. -/
theorem foldl_add_toNat (bs : List Byte) (acc : Byte) :
    (bs.foldl (· + ·) acc).toNat = (acc.toNat + byteSum bs) % 256 := by
  induction bs generalizing acc with
  | nil => simpa using (Nat.mod_eq_of_lt acc.isLt).symm
  | cons b bs ih =>
    rw [List.foldl_cons, ih, BitVec.toNat_add, byteSum_cons]
    omega

theorem checksum_eq_foldl_add_one (bs : List Byte) : checksum bs = bs.foldl (· + ·) 0#8 + 1#8 := by
  apply BitVec.eq_of_toNat_eq
  rw [checksum_toNat, BitVec.toNat_add, foldl_add_toNat]
  simp

/-- Settles O3: the value, the sum over `++`, the order, and the wrapping accumulator, each by its lemma about `byteSum`. -/
theorem checksumArithmeticLaws : Obligations.ChecksumArithmeticLaws :=
  ⟨checksum_toNat, checksum_append_toNat, fun _ _ => checksum_eq_of_perm, checksum_eq_foldl_add_one⟩

end Sys2Proof.Machine
end

section
/-!
Obligation O21: STOP and TURN send fixed Commands (R167, R168), as MOTION (R164) does with their operands.
-/
namespace Sys2Proof.Machine

/-- An accepted EXECUTE of a built, valid Command completes with one hand-over, whatever the description (R160). -/
theorem answered_request_executeBuilt {s : State} (ha : Accepting s) {cmd : Command} (hv : Valid cmd) (d : Text) :
    answered (request (executeBuilt (.ok cmd) d) s) = .next { Sent s cmd with result := some (sentResult s cmd) } := by
  refine (answered_request_iff _ _ _).mpr ⟨ha, ?_⟩
  rw [executeBuilt_valid hv, finish_sent]

theorem exec_stop_accepting {s : State} (ha : Accepting s) :
    exec .stop s = .next { Sent s [6, 0, 0, 0] with result := some (sentResult s [6, 0, 0, 0]) } :=
  answered_request_executeBuilt ha valid_stop _

theorem exec_turn_accepting {s : State} (ha : Accepting s) :
    exec .turn s = .next { Sent s [6, 0, 0, 80] with result := some (sentResult s [6, 0, 0, 80]) } :=
  answered_request_executeBuilt ha valid_turn _

/-- MOTION of operands its serializer accepts hands over the Command it builds (R164). -/
theorem exec_motion_accepting {s : State} (ha : Accepting s) {fwd strafe turn : Int} {cmd : Command}
    (hbuilt : buildMotion fwd strafe turn = .ok cmd) (hv : Valid cmd) :
    exec (.motion fwd strafe turn) s = .next { Sent s cmd with result := some (sentResult s cmd) } := by
  rw [exec, execMotion, moveMotionOp, hbuilt]
  exact answered_request_executeBuilt ha hv _

/-- Settles O21: each of the two Commands is valid and is what MOTION's serializer builds from the same operands, so both
requests end in the state of the same hand-over. -/
theorem stopAndTurnSendFixedCommands : Obligations.StopAndTurnSendFixedCommands := by
  intro s ha
  have hstop := exec_stop_accepting ha
  have hturn := exec_turn_accepting ha
  have hbuildStop : buildMotion 0 0 0 = .ok buildStop := buildMotion_ok (by decide) (by decide) (by decide)
  have hbuildTurn : buildMotion 0 0 80 = .ok buildTurn := buildMotion_ok (by decide) (by decide) (by decide)
  exact ⟨hstop, hturn, hstop.trans (exec_motion_accepting ha hbuildStop valid_stop).symm,
    hturn.trans (exec_motion_accepting ha hbuildTurn valid_turn).symm⟩

end Sys2Proof.Machine
end

section
/-!
The blocks of the stuffing (R115): what the loop of STUFF emits for a run of non-zero bytes that a zero byte, the end of
the input or the bound of 254 ends, and the induction over these blocks that the claims about STUFF rest on.
-/
namespace Sys2Proof.Machine

/-! ### STUFF from the middle of its loop -/

/-- What STUFF still emits when its loop stands in state `st` before the bytes `raw` (R115). -/
def stuffRest (p : TrailingPolicy) (st : StuffState) (raw : List Byte) : List Byte :=
  stuffEnd (raw.foldl (stuffByte p) st)

theorem stuff_eq_stuffRest (p : TrailingPolicy) (raw : List Byte) : stuff p raw = stuffRest p ⟨[], [], true⟩ raw := rfl

/-- The loop body appends to the completed blocks and does not look at them. -/
theorem stuffByte_out (p : TrailingPolicy) (out blk : List Byte) (o : Bool) (b : Byte) :
    stuffByte p ⟨out, blk, o⟩ b =
      { stuffByte p ⟨[], blk, o⟩ b with out := out ++ (stuffByte p ⟨[], blk, o⟩ b).out } := by
  unfold stuffByte
  by_cases hb : b = 0x00#8
  · simp [hb]
  · by_cases hfull : ((if o then blk else []) ++ [b]).length = Config.cobsFullRun
    · simp only [hb, hfull, if_true, if_false, List.nil_append]
    · simp only [hb, hfull, if_false, List.append_nil]

theorem stuffRest_out (p : TrailingPolicy) (out blk : List Byte) (o : Bool) (raw : List Byte) :
    stuffRest p ⟨out, blk, o⟩ raw = out ++ stuffRest p ⟨[], blk, o⟩ raw := by
  induction raw generalizing out blk o with
  | nil => cases o <;> simp [stuffRest, stuffEnd]
  | cons b raw ih =>
    have hstep (out : List Byte) : stuffRest p ⟨out, blk, o⟩ (b :: raw) =
        stuffRest p (stuffByte p ⟨out, blk, o⟩ b) raw := rfl
    rw [hstep, hstep, stuffByte_out, ih, ih (stuffByte p ⟨[], blk, o⟩ b).out, List.append_assoc]

/-- With no block open, nothing is emitted at the end of the input, and any further byte opens a block. -/
theorem stuffRest_after_full (p : TrailingPolicy) (raw : List Byte) :
    stuffRest p ⟨[], [], p == .emitBlock⟩ raw = if raw = [] ∧ p = .omitBlock then [] else stuff p raw := by
  cases raw with
  | nil => cases p <;> rfl
  | cons b raw =>
    have hstep : stuffByte p ⟨[], [], p == .emitBlock⟩ b = stuffByte p ⟨[], [], true⟩ b := by
      simp [stuffByte]
    have hrest : stuffRest p ⟨[], [], p == .emitBlock⟩ (b :: raw) = stuff p (b :: raw) := by
      rw [stuff_eq_stuffRest, stuffRest, List.foldl_cons, hstep]
      rfl
    simpa using hrest

/-- Non-zero bytes join the open block while it stays below 254 bytes. -/
theorem stuffRest_grow (p : TrailingPolicy) {g : List Byte} (hg : 0x00#8 ∉ g) (blk rest : List Byte)
    (hlen : blk.length + g.length ≤ 253) :
    stuffRest p ⟨[], blk, true⟩ (g ++ rest) = stuffRest p ⟨[], blk ++ g, true⟩ rest := by
  induction g generalizing blk with
  | nil => simp
  | cons b g ih =>
    obtain ⟨hb, hg'⟩ := not_or.mp (mt List.mem_cons.mpr hg)
    have hlen' : (blk ++ [b]).length + g.length ≤ 253 := by simp at hlen ⊢; omega
    have hnotFull : (blk ++ [b]).length ≠ 254 := by omega
    have hstep : stuffByte p ⟨[], blk, true⟩ b = ⟨[], blk ++ [b], true⟩ := by
      simp only [stuffByte, if_true, if_neg (Ne.symm hb), if_neg hnotFull]
    calc stuffRest p ⟨[], blk, true⟩ (b :: g ++ rest)
        = stuffRest p (stuffByte p ⟨[], blk, true⟩ b) (g ++ rest) := rfl
      _ = stuffRest p ⟨[], blk ++ [b], true⟩ (g ++ rest) := by rw [hstep]
      _ = stuffRest p ⟨[], (blk ++ [b]) ++ g, true⟩ rest := ih hg' _ hlen'
      _ = stuffRest p ⟨[], blk ++ b :: g, true⟩ rest := by simp

/-! ### The three kinds of blocks -/

/-- At most 253 non-zero bytes at the end of the input are one block. -/
theorem stuff_short (p : TrailingPolicy) {g : List Byte} (hg : 0x00#8 ∉ g) (hlen : g.length ≤ 253) :
    stuff p g = block g := by
  have hgrow := stuffRest_grow p hg [] [] (by simpa using hlen)
  rw [List.append_nil] at hgrow
  rw [stuff_eq_stuffRest, hgrow]
  rfl

/-- A zero byte after at most 253 non-zero bytes closes their block. -/
theorem stuff_zero (p : TrailingPolicy) {g : List Byte} (hg : 0x00#8 ∉ g) (hlen : g.length ≤ 253) (rest : List Byte) :
    stuff p (g ++ 0x00#8 :: rest) = block g ++ stuff p rest := by
  rw [stuff_eq_stuffRest, stuffRest_grow p hg [] _ (by simpa using hlen)]
  exact stuffRest_out p (block g) [] true rest

/-- 254 non-zero bytes are a full block, and nothing more is emitted when they end the input under OMIT (R115, D8). -/
theorem stuff_full (p : TrailingPolicy) {g : List Byte} (hg : 0x00#8 ∉ g) (hlen : g.length = 254) (rest : List Byte) :
    stuff p (g ++ rest) = 0xff#8 :: g ++ if rest = [] ∧ p = .omitBlock then [] else stuff p rest := by
  obtain rfl | ⟨g, b, rfl⟩ := List.eq_nil_or_concat g
  · simp at hlen
  simp only [List.concat_eq_append, List.mem_append, List.mem_singleton, not_or] at hg
  obtain ⟨hg, hb⟩ := hg
  have hlast : g.length = 253 := by simpa using hlen
  have hfull : (g ++ [b]).length = 254 := by simp [hlast]
  have hstep : stuffByte p ⟨[], g, true⟩ b = ⟨0xff#8 :: (g ++ [b]), [], p == .emitBlock⟩ := by
    simp only [stuffByte, if_true, if_neg (Ne.symm hb), if_pos hfull, List.nil_append]
  calc stuff p (g.concat b ++ rest)
      = stuffRest p ⟨[], [], true⟩ (g ++ b :: rest) := by rw [stuff_eq_stuffRest]; simp
    _ = stuffRest p ⟨[], g, true⟩ (b :: rest) := stuffRest_grow p hg [] _ (by simp [hlast])
    _ = stuffRest p (stuffByte p ⟨[], g, true⟩ b) rest := rfl
    _ = 0xff#8 :: (g ++ [b]) ++ stuffRest p ⟨[], [], p == .emitBlock⟩ rest := by rw [hstep, stuffRest_out]
    _ = _ := by rw [stuffRest_after_full, List.concat_eq_append]

/-! ### Induction over the blocks -/

/-- Every byte sequence is at most 253 non-zero bytes, or these and a zero byte before a byte sequence, or 254 non-zero
bytes before one. -/
theorem block_induction {P : List Byte → Prop}
    (short : ∀ g : List Byte, 0x00#8 ∉ g → g.length ≤ 253 → P g)
    (zero : ∀ g rest : List Byte, 0x00#8 ∉ g → g.length ≤ 253 → P rest → P (g ++ 0x00#8 :: rest))
    (full : ∀ g rest : List Byte, 0x00#8 ∉ g → g.length = 254 → P rest → P (g ++ rest)) (raw : List Byte) : P raw := by
  by_cases hz : 0x00#8 ∈ raw.take 254
  · obtain ⟨g, tail, htake, hg⟩ := List.eq_append_cons_of_mem hz
    have hraw : raw = g ++ 0x00#8 :: (tail ++ raw.drop 254) := by
      rw [← List.cons_append, ← List.append_assoc, ← htake, List.take_append_drop]
    have hlen : g.length ≤ 253 := by
      have := congrArg List.length htake
      simp at this
      omega
    have hdec : (tail ++ raw.drop 254).length < raw.length := by
      have := congrArg List.length hraw
      simp only [List.length_append, List.length_cons] at this ⊢
      omega
    exact hraw ▸ zero g _ hg hlen (block_induction short zero full _)
  · by_cases hlen : raw.length ≤ 253
    · exact short raw (by rwa [List.take_of_length_le (by omega)] at hz) hlen
    · have hrec := block_induction short zero full (raw.drop 254)
      exact List.take_append_drop 254 raw ▸ full _ _ hz (by simp; omega) hrec
termination_by raw.length
decreasing_by
  · exact hdec
  · simp; omega

/-! ### Codes -/

/-- The code byte of a block counts its data bytes and itself (R74). -/
theorem block_code_toNat {g : List Byte} (hlen : g.length ≤ 253) :
    (BitVec.ofNat 8 (g.length + 1)).toNat = g.length + 1 := by
  rw [BitVec.toNat_ofNat]
  omega

theorem block_code_ne_zero {g : List Byte} (hlen : g.length ≤ 253) : BitVec.ofNat 8 (g.length + 1) ≠ 0x00#8 := by
  intro h
  have := congrArg BitVec.toNat h
  rw [block_code_toNat hlen] at this
  simp at this

theorem block_code_ne_full {g : List Byte} (hlen : g.length ≤ 253) : BitVec.ofNat 8 (g.length + 1) ≠ 0xff#8 := by
  intro h
  have := congrArg BitVec.toNat h
  rw [block_code_toNat hlen] at this
  simp at this
  omega

theorem stuff_ne_nil (p : TrailingPolicy) (raw : List Byte) : stuff p raw ≠ [] := by
  cases raw using block_induction with
  | short g hg hlen => simp [stuff_short p hg hlen, block]
  | zero g rest hg hlen => simp [stuff_zero p hg hlen, block]
  | full g rest hg hlen => simp [stuff_full p hg hlen]

end Sys2Proof.Machine
end

section
/-!
Obligation O9: UNSTUFF recovers the raw bytes (R118).
-/
namespace Sys2Proof.Machine

theorem unstuffFuel_nil (n : Nat) : unstuffFuel n [] = some [] := by cases n <;> rfl

/-- UNSTUFF of a block with at most 253 data bytes: a zero byte follows unless the block ends the input (R118). -/
theorem unstuffFuel_block {g : List Byte} (hlen : g.length ≤ 253) (n : Nat) (more : List Byte) :
    unstuffFuel (n + 1) (block g ++ more) =
      (unstuffFuel n more).map fun out => g ++ if more ≠ [] then 0x00#8 :: out else out := by
  have hdata : (BitVec.ofNat 8 (g.length + 1)).toNat - 1 = g.length := by rw [block_code_toNat hlen]; rfl
  rw [block, List.cons_append, unstuffFuel, hdata, if_neg (block_code_ne_zero hlen), if_neg (by simp),
    List.take_left, List.drop_left]
  dsimp only
  cases unstuffFuel n more <;> simp [block_code_ne_full hlen]

/-- UNSTUFF of a full block: no zero byte follows (R118). -/
theorem unstuffFuel_full {g : List Byte} (hlen : g.length = 254) (n : Nat) (more : List Byte) :
    unstuffFuel (n + 1) (0xff#8 :: g ++ more) = (unstuffFuel n more).map (g ++ ·) := by
  have hdata : (0xff#8).toNat - 1 = g.length := by rw [hlen]; rfl
  rw [List.cons_append, unstuffFuel, hdata, if_neg (by decide), if_neg (by simp), List.take_left, List.drop_left]
  dsimp only
  cases unstuffFuel n more <;> simp

theorem unstuffFuel_stuff (p : TrailingPolicy) (raw : List Byte) :
    ∀ n, (stuff p raw).length ≤ n → unstuffFuel n (stuff p raw) = some raw := by
  induction raw using block_induction with
  | short g hg hlen =>
    intro n hn
    rw [stuff_short p hg hlen] at hn ⊢
    obtain _ | n := n
    · simp [block] at hn
    · simpa [unstuffFuel_nil] using unstuffFuel_block hlen n []
  | zero g rest hg hlen ih =>
    intro n hn
    rw [stuff_zero p hg hlen] at hn ⊢
    obtain _ | n := n
    · simp [block] at hn
    · rw [unstuffFuel_block hlen, ih n (by simp [block] at hn; omega)]
      simp [stuff_ne_nil]
  | full g rest hg hlen ih =>
    intro n hn
    rw [stuff_full p hg hlen] at hn ⊢
    obtain _ | n := n
    · simp at hn
    · rw [unstuffFuel_full hlen]
      split at hn
      · next hend => simp [hend, unstuffFuel_nil]
      · next hmore => rw [if_neg hmore, ih n (by simp at hn; omega)]; rfl

/-- Settles O9, by induction over the blocks STUFF emits, each of which UNSTUFF takes off. -/
theorem stuffingIsReversible : Obligations.StuffingIsReversible :=
  fun p raw => unstuffFuel_stuff p raw _ le_rfl

end Sys2Proof.Machine
end

section
/-!
What an operation and a step can do to the machine, said once: RESET, a change of the relay's fields alone, or an
accepted operation of the block and a change of the relay's fields. The claims about all operations rest on it.
-/
namespace Sys2Proof.Machine

/-! ### Requests to the block -/

/-- Every request but HEIGHT leaves CUR_HEIGHT alone (R23). -/
theorem opOf_keeps_curHeight {i : Instr} {s : State} (hf : s.fatal = false) (hn : ∀ h, i ≠ .height h) :
    (opOf i s).1.curHeight = s.curHeight := by
  cases i with
  | motion => exact (executeBuilt_keeps _ _ s).1
  | height h => exact absurd rfl (hn h)
  | stop => exact (executeBuilt_keeps _ _ s).1
  | turn => exact (executeBuilt_keeps _ _ s).1
  | init0 => simp only [opOf, initStepOp_eq]; rfl
  | init1 => simp only [opOf, initStepOp_eq]; rfl
  | init2 => simp only [opOf, initStepOp_eq]; rfl
  | init => exact (initLoop_spec _ hf).2.2
  | raw => exact (executeBuilt_keeps _ _ s).1
  | execute _ d => exact (executeOp_keeps _ d s).1
  | encode => exact (encodeOp_keeps _ s).1
  | checksum | reset | classify | exit | motionMessage | heightMessage | rawMessage | fallback => rfl

/-- Every request but INIT and its steps leaves SEQ_IDX alone (R28). -/
theorem opOf_keeps_seqIdx {i : Instr} {s : State} (hn : i ∉ [Instr.init, .init0, .init1, .init2]) :
    (opOf i s).1.seqIdx = s.seqIdx := by
  cases i with
  | motion => exact (executeBuilt_keeps _ _ s).2
  | height h => exact (setHeightOp_keeps h s).1
  | stop => exact (executeBuilt_keeps _ _ s).2
  | turn => exact (executeBuilt_keeps _ _ s).2
  | init0 | init1 | init2 | init => simp at hn
  | raw => exact (executeBuilt_keeps _ _ s).2
  | execute _ d => exact (executeOp_keeps _ d s).2
  | encode => exact (encodeOp_keeps _ s).2
  | checksum | reset | classify | exit | motionMessage | heightMessage | rawMessage | fallback => rfl

/-- ENCODE sends nothing and uses no answer of the sink (R110). -/
theorem encodeOp_keeps_session (cmd : Command) (s : State) :
    (encodeOp cmd s).1.fatal = s.fatal ∧ (encodeOp cmd s).1.txlog = s.txlog ∧
      (encodeOp cmd s).1.sinkInputs = s.sinkInputs ∧ (encodeOp cmd s).1.sinkDraws = s.sinkDraws := by
  unfold encodeOp
  cases codec cmd <;> simp

/-! ### All operations -/

/-- `s` with other contents of the relay's three fields (R33, R180). -/
def State.withRelay (s : State) (relay : RelayState) (kind : Option MsgKind) (r : Option OpResult) : State :=
  { s with relay := relay, relayKind := kind, relayR := r }

/-- The operation `i` set CUR_HEIGHT to its operand, in the state and with the result `x` (R166). -/
def SetsHeight (i : Instr) (x : State × OpResult) : Prop :=
  ∃ hex, x.2 = .ok (.hex hex) ∧ 1 ≤ x.1.curHeight ∧ x.1.curHeight ≤ 127 ∧
    (i = .height x.1.curHeight ∨ ∃ msg, i = .heightMessage msg ∧ heightOperand msg = .ok x.1.curHeight)

/-- What the operation `i` can make of the state `s`. -/
inductive Effect (i : Instr) (s : State) : State → Prop
  /-- RESET (R230). -/
  | reset {h : Int} {d : Nat} (hi : i = .reset h d) (hh : 1 ≤ h ∧ h ≤ 127) : Effect i s (s.afterReset h d)
  /-- Nothing reached the block (R181, R182, R214). -/
  | frontEnd {relay : RelayState} {kind : Option MsgKind} {r : Option OpResult}
      (hr : r = s.relayR ∨ r ≠ some (.err .encoding)) : Effect i s (s.withRelay relay kind r)
  /-- The block ran an accepted operation, for a message or not (R171). -/
  | block {x : State × OpResult} {relay : RelayState} {kind : Option MsgKind} {r : Option OpResult}
      (ha : Accepting s) (hx : OpSpec s x) (hr : r = s.relayR ∨ r = some x.2)
      (hh : x.1.curHeight = s.curHeight ∨ SetsHeight i x) :
      Effect i s ((x.1.finish x.2).withRelay relay kind r)

/-- A request to the block has the effect of its operation, and leaves the relay alone. -/
theorem effect_of_request {i : Instr} (hi : i.isRequest = true) {s t : State} (h : exec i s = .next t) :
    Effect i s t := by
  obtain ⟨ha, rfl⟩ := exec_request hi h
  have hx := opSpec_of_request hi ha.1
  have hheight : (opOf i s).1.curHeight = s.curHeight ∨ SetsHeight i (opOf i s) := by
    by_cases hn : ∃ height, i = .height height
    · obtain ⟨height, rfl⟩ := hn
      refine (setHeightOp_keeps height s).2.imp_right fun ⟨heq, hlo, hhi, hex, hok⟩ => ?_
      exact ⟨hex, hok, heq.symm ▸ hlo, heq.symm ▸ hhi, .inl (congrArg Instr.height heq.symm)⟩
    · exact .inl (opOf_keeps_curHeight ha.1 fun height hi => hn ⟨height, hi⟩)
  exact .block (relay := ((opOf i s).1.finish (opOf i s).2).relay)
    (kind := ((opOf i s).1.finish (opOf i s).2).relayKind) ha hx (.inl ((finish_relayR _ _).trans hx.relayR)) hheight

/-- A message changes the relay's fields, and has the effect of the request it makes, if it makes one. -/
theorem effect_of_message {i : Instr} (hi : i.isMessage = true) {s t : State} (h : exec i s = .next t) :
    Effect i s t := by
  obtain ⟨-, k, ⟨e, he, -, rfl⟩ | ⟨rfl, rfl⟩ | ⟨-, x, ha, hx, -, rfl, hheight⟩⟩ := exec_message hi h
  · refine .frontEnd (.inr ?_)
    obtain ⟨p, rfl⟩ | ⟨v, rfl⟩ := he <;> simp
  · exact .frontEnd (.inr (by simp))
  · refine .block ha hx (.inr rfl) (hheight.imp_right ?_)
    rintro ⟨hex, msg, hok, hlo, hhi, hmsg, hop⟩
    exact ⟨hex, hok, hlo, hhi, .inr ⟨msg, hmsg, hop⟩⟩

theorem exec_reset_next_iff (h : Int) (d : Nat) (s t : State) :
    exec (.reset h d) s = .next t ↔ (1 ≤ h ∧ h ≤ 127) ∧ t = s.afterReset h d := by
  rw [← isHeight_iff]
  by_cases hh : isHeight h = true
  · simpa [exec, execReset, hh] using eq_comm
  · simp [exec, execReset, hh]

/-- Every operation that is answered has one of the effects of `Effect`. -/
theorem exec_effect {i : Instr} {s t : State} (h : exec i s = .next t) : Effect i s t := by
  by_cases hreq : i.isRequest = true
  · exact effect_of_request hreq h
  by_cases hmsg : i.isMessage = true
  · exact effect_of_message hmsg h
  cases i with
  | reset height d =>
    obtain ⟨hh, rfl⟩ := (exec_reset_next_iff height d s t).mp h
    exact .reset rfl hh
  | classify msg =>
    cases h
    exact .frontEnd (.inl rfl)
  | _ => simp [Instr.isRequest, Instr.isMessage] at hreq hmsg

/-- Every step that is answered was idle, ended the relay on a failed RECEIVE, or ran an operation (R236). -/
theorem step_next {s t : State} (h : step s = .next t) :
    t = s ∨
      (∃ rest, t = ({ s with requests := rest } : State).withRelay .terminated s.relayKind (some (.err .transport))) ∨
      ∃ i rest, exec i { s with requests := rest } = .next t := by
  unfold step at h
  split at h
  · cases h
    exact .inl rfl
  · next rest _ =>
    obtain ⟨-, hnext⟩ := (whileRunning_eq_next_iff _ _ _).mp h
    cases hnext
    exact .inr (.inl ⟨rest, rfl⟩)
  · split at h
    · next i _ => exact .inr (.inr ⟨i, _, h⟩)
    · cases h

end Sys2Proof.Machine
end

section
/-!
Obligations O38 and O39: the invariant of the machine (R11, R23, R24, R26, R29, R55).
-/
namespace Sys2Proof.Machine

/-- The invariant does not look at the relay. -/
theorem Inv.withRelay {s : State} (h : Inv s) (relay : RelayState) (kind : Option MsgKind) (r : Option OpResult) :
    Inv (s.withRelay relay kind r) :=
  ⟨h.idle, h.height, h.config, h.buffers, h.log⟩

/-- The invariant does not look at the requests still to come. -/
theorem Inv.withRequests {s : State} (h : Inv s) (requests : List Request) : Inv { s with requests := requests } :=
  ⟨h.idle, h.height, h.config, h.buffers, h.log⟩

theorem inv_afterReset (s : State) {h : Int} (hh : 1 ≤ h ∧ h ≤ 127) (d : Nat) : Inv (s.afterReset h d) :=
  ⟨rfl, hh, hh, .inl ⟨rfl, rfl, rfl, rfl, rfl⟩, rfl⟩

/-- An accepted operation of the block keeps the invariant, once it is finished. -/
theorem Inv.finish {i : Instr} {s : State} (h : Inv s) (hf : s.fatal = false) {x : State × OpResult} (hx : OpSpec s x)
    (hheight : x.1.curHeight = s.curHeight ∨ SetsHeight i x) : Inv (x.1.finish x.2) where
  idle := finish_phase _ _
  height := by
    rw [finish_curHeight]
    obtain heq | ⟨_, _, hlo, hhi, _⟩ := hheight
    · exact heq.symm ▸ h.height
    · exact ⟨hlo, hhi⟩
  config := by simpa [hx.cfgDefaultHeight] using h.config
  buffers := (hx.buffers h.buffers).congr (finish_cmd _ _) (finish_rawb _ _) (finish_stuffed _ _) (finish_chk _ _)
    (finish_frame _ _) (finish_hex _ _)
  log := by simpa using hx.log (hf ▸ h.log)

theorem Inv.exec {i : Instr} {s t : State} (h : Inv s) (ht : exec i s = .next t) : Inv t := by
  cases exec_effect ht with
  | reset _ hh => exact inv_afterReset s hh _
  | frontEnd _ => exact h.withRelay _ _ _
  | block ha hx _ hheight => exact (h.finish ha.1 hx hheight).withRelay _ _ _

/-- Settles O38: each of the effects a step can have keeps the invariant. -/
theorem stepKeepsInvariant : Obligations.StepKeepsInvariant := by
  intro s t h hstep
  obtain rfl | ⟨rest, rfl⟩ | ⟨i, rest, hexec⟩ := step_next hstep
  · exact h
  · exact (h.withRequests rest).withRelay _ _ _
  · exact (h.withRequests rest).exec hexec

/-- Settles O39: State.reset is the state after a RESET with the configured height. -/
theorem resetHasInvariant : Obligations.ResetHasInvariant :=
  inv_afterReset State.reset (by decide) Config.delay

end Sys2Proof.Machine
end

section
/-!
Decoding packed Commands (R71, R78, R83): which words the rows of the table match, and what every word decodes to.
-/
namespace Sys2Proof

/-! ### Masks -/

theorem byte_and_ff (b : Byte) : b &&& 0xff = b := BitVec.and_allOnes

/-- The bytes below `0x80` are those whose top bit the mask of the height row finds clear. -/
theorem byte_and_80_eq_zero_iff (b : Byte) : b &&& 0x80 = 0x00 ↔ b.toNat < 128 := by
  revert b
  decide +kernel

/-! ### The rows of the table -/

/-- A row that fixes every bit matches its pattern only (R83). -/
theorem matchesWord_all_fixed {k : WordKind} {pattern bs : List Byte} :
    WordRow.matchesWord ⟨k, pattern, List.replicate pattern.length 0xff⟩ bs = true ↔ bs = pattern := by
  have hmask : bs.length = pattern.length → List.zipWith (· &&& ·) bs (List.replicate pattern.length 0xff) = bs := by
    intro hlen
    rw [← hlen]
    clear hlen
    induction bs with
    | nil => rfl
    | cons b bs ih => rw [List.length_cons, List.replicate_succ, List.zipWith_cons_cons, ih, byte_and_ff]
  simp only [WordRow.matchesWord, Bool.and_eq_true, beq_iff_eq]
  constructor
  · rintro ⟨hlen, hzip⟩
    exact (hmask hlen).symm.trans hzip
  · rintro rfl
    exact ⟨rfl, hmask rfl⟩

/-- The rows of `wordRows`, by name. -/
def stopRow : WordRow := ⟨.stop, [0x06, 0x00, 0x00, 0x00], [0xff, 0xff, 0xff, 0xff]⟩
def turnRow : WordRow := ⟨.turn, [0x06, 0x00, 0x00, 0x50], [0xff, 0xff, 0xff, 0xff]⟩
def heightRow : WordRow := ⟨.height, [0x04, 0x00, 0x07, 0x00], [0xff, 0xff, 0xff, 0x80]⟩
def motionRow : WordRow := ⟨.motion, [0x06, 0x00, 0x00, 0x00], [0xff, 0x00, 0x00, 0x00]⟩
def init1Row : WordRow := ⟨.init1, [0x07, 0x01], [0xff, 0xff]⟩
def init0Row : WordRow := ⟨.init0, [0x10], [0xff]⟩

theorem wordRows_eq : wordRows = [stopRow, turnRow, heightRow, motionRow, init1Row, init0Row] := rfl

theorem stopRow_matches_iff {bs : List Byte} : stopRow.matchesWord bs = true ↔ bs = [0x06, 0x00, 0x00, 0x00] :=
  matchesWord_all_fixed

theorem turnRow_matches_iff {bs : List Byte} : turnRow.matchesWord bs = true ↔ bs = [0x06, 0x00, 0x00, 0x50] :=
  matchesWord_all_fixed

theorem init1Row_matches_iff {bs : List Byte} : init1Row.matchesWord bs = true ↔ bs = [0x07, 0x01] :=
  matchesWord_all_fixed

theorem init0Row_matches_iff {bs : List Byte} : init0Row.matchesWord bs = true ↔ bs = [0x10] :=
  matchesWord_all_fixed

/-- MOTION's row fixes the first of four bytes (R71). -/
theorem motionRow_matches_iff {bs : List Byte} :
    motionRow.matchesWord bs = true ↔ ∃ f s t, bs = [0x06, f, s, t] := by
  constructor
  · intro h
    simp only [motionRow, WordRow.matchesWord, Bool.and_eq_true, beq_iff_eq] at h
    obtain ⟨hlen, hzip⟩ := h
    match bs, hlen with
    | [o, f, s, t], _ =>
      simp only [List.zipWith, List.cons.injEq, byte_and_ff] at hzip
      exact ⟨f, s, t, by rw [hzip.1]⟩
  · rintro ⟨f, s, t, rfl⟩
    simp [motionRow, WordRow.matchesWord]

/-- HEIGHT's row fixes three of four bytes and the top bit of the last (R71). -/
theorem heightRow_matches_iff {bs : List Byte} :
    heightRow.matchesWord bs = true ↔ ∃ h : Byte, bs = [0x04, 0x00, 0x07, h] ∧ h.toNat < 128 := by
  constructor
  · intro h
    simp only [heightRow, WordRow.matchesWord, Bool.and_eq_true, beq_iff_eq] at h
    obtain ⟨hlen, hzip⟩ := h
    match bs, hlen with
    | [a, b, c, h], _ =>
      simp only [List.zipWith, List.cons.injEq, byte_and_ff, byte_and_80_eq_zero_iff] at hzip
      obtain ⟨rfl, rfl, rfl, hh, -⟩ := hzip
      exact ⟨h, rfl, hh⟩
  · rintro ⟨h, rfl, hh⟩
    have := (byte_and_80_eq_zero_iff h).mpr hh
    simpa [heightRow, WordRow.matchesWord] using this

/-! ### What a word decodes to -/

/-- The first row a word matches builds its operation (R83; log 3). -/
theorem decodeWord_of_find {bs : List Byte} {r : WordRow} {i : Instr}
    (hfind : wordRows.find? (·.matchesWord bs) = some r) (hbuild : r.kind.build bs = some i) : decodeWord bs = i := by
  simp [decodeWord, hfind, hbuild]

/-- The words with MOTION's opcode are MOTION, but for those of STOP and TURN (R78; log 3). -/
theorem decodeWord_motion {f s t : Byte} (hstop : [f, s, t] ≠ [0x00, 0x00, 0x00])
    (hturn : [f, s, t] ≠ [0x00, 0x00, 0x50]) :
    decodeWord [0x06, f, s, t] = .motion (sext8 f) (sext8 s) (sext8 t) := by
  have hnotStop : ¬ stopRow.matchesWord [0x06, f, s, t] = true :=
    fun h => hstop (List.cons.inj (stopRow_matches_iff.mp h)).2
  have hnotTurn : ¬ turnRow.matchesWord [0x06, f, s, t] = true :=
    fun h => hturn (List.cons.inj (turnRow_matches_iff.mp h)).2
  have hnotHeight : ¬ heightRow.matchesWord [0x06, f, s, t] = true := by
    rw [heightRow_matches_iff]
    simp
  have hmatch : motionRow.matchesWord [0x06, f, s, t] = true := motionRow_matches_iff.mpr ⟨f, s, t, rfl⟩
  refine decodeWord_of_find (r := motionRow) ?_ rfl
  simp only [wordRows_eq, List.find?_cons, hnotStop, hnotTurn, hnotHeight, hmatch]

/-- The words of a height command with a height in 1..127 are HEIGHT (R72, R79). -/
theorem decodeWord_height {h : Byte} (hpos : h ≠ 0x00) (hlt : h.toNat < 128) :
    decodeWord [0x04, 0x00, 0x07, h] = .height (sext8 h) := by
  have hnotStop : ¬ stopRow.matchesWord [0x04, 0x00, 0x07, h] = true := by
    rw [stopRow_matches_iff]
    simp
  have hnotTurn : ¬ turnRow.matchesWord [0x04, 0x00, 0x07, h] = true := by
    rw [turnRow_matches_iff]
    simp
  have hmatch : heightRow.matchesWord [0x04, 0x00, 0x07, h] = true := heightRow_matches_iff.mpr ⟨h, rfl, hlt⟩
  refine decodeWord_of_find (r := heightRow) ?_ (if_neg hpos)
  simp only [wordRows_eq, List.find?_cons, hnotStop, hnotTurn, hmatch]

/-- The Command of the operation a word decodes to is the word's elements, whichever row it matched (R83). -/
theorem decodeWord_command (bs : List Byte) : (decodeWord bs).command = some (bs.map sext8) := by
  unfold decodeWord
  split
  · next r hfind =>
    have hmatch := List.find?_some hfind
    have hmem := List.mem_of_find?_eq_some hfind
    simp only [wordRows_eq, List.mem_cons, List.not_mem_nil, or_false] at hmem
    obtain rfl | rfl | rfl | rfl | rfl | rfl := hmem
    · obtain rfl := stopRow_matches_iff.mp hmatch
      rfl
    · obtain rfl := turnRow_matches_iff.mp hmatch
      rfl
    · obtain ⟨h, rfl, -⟩ := heightRow_matches_iff.mp hmatch
      by_cases hz : h = 0x00#8
      · subst hz
        rfl
      · simp only [heightRow, WordKind.build, if_neg hz]
        rfl
    · obtain ⟨f, s, t, rfl⟩ := motionRow_matches_iff.mp hmatch
      rfl
    · obtain rfl := init1Row_matches_iff.mp hmatch
      rfl
    · obtain rfl := init0Row_matches_iff.mp hmatch
      rfl
  · rfl

theorem map_pack8_map_sext8 (bs : List Byte) : (bs.map sext8).map pack8 = bs := by
  simp [Function.comp_def, pack8_sext8]

theorem valid_map_sext8 (bs : List Byte) : Machine.Valid (bs.map sext8) := by
  intro v hv
  obtain ⟨b, -, rfl⟩ := List.mem_map.mp hv
  exact sext8_bounds b

/-- Settles O57: the Command of the decoded operation is the word's elements, and packing inverts `sext8`. -/
theorem decodedWordKeepsEveryBit : Obligations.DecodedWordKeepsEveryBit :=
  fun bs => ⟨_, decodeWord_command bs, valid_map_sext8 bs, map_pack8_map_sext8 bs⟩

/-- Settles O58, by running the decoder on the eight words. -/
theorem tableWordsDecode : Obligations.TableWordsDecode := by
  unfold Obligations.TableWordsDecode
  decide

end Sys2Proof
end

section
/-!
Obligation O56: decoding what the encoder lays out gives the operation back.
-/
namespace Sys2Proof

theorem decode_direct {i : Instr} (hwf : i.wf = true) : decode (.direct i) = .ok i := if_pos hwf

/-- An operation with neither a word nor a text is presented at the request port. -/
theorem decode_encode_port {i : Instr} (htext : encodeText i = none) (hword : encodeWord i = none) (hwf : i.wf = true) :
    decode (encode i) = .ok i := by
  simpa [encode, htext, hword] using decode_direct hwf

/-- A message is presented as its text, and read by the class of the text (R180). -/
theorem decode_encode_text {i : Instr} {msg : Text} (htext : encodeText i = some msg) (hdec : decodeText msg = i) :
    decode (encode i) = .ok i := by
  simp [encode, htext, decode, hdec]

/-- An operation is presented as its packed word where that is its own, and at the request port else (log 3). -/
theorem decode_encode_word {i : Instr} {bs : List Byte} (htext : encodeText i = none) (hword : encodeWord i = some bs)
    (hwf : i.wf = true) (hown : i.hasOwnWord = true → decodeWord bs = i) : decode (encode i) = .ok i := by
  by_cases ho : i.hasOwnWord = true
  · simp [encode, htext, hword, ho, decode, hown ho]
  · simpa [encode, htext, hword, ho] using decode_direct hwf

/-- MOTION's word is read back where its operands pack and are not those of STOP or TURN (R78). -/
theorem decodeWord_motion_pack8 {f s t : Int} (ho : (Instr.motion f s t).hasOwnWord = true) :
    decodeWord [0x06, pack8 f, pack8 s, pack8 t] = .motion f s t := by
  simp only [Instr.hasOwnWord, Bool.and_eq_true, isSignedByte_iff] at ho
  obtain ⟨⟨⟨⟨hf, hs⟩, ht⟩, hstop⟩, hturn⟩ := ho
  have h80 (h : pack8 t = 0x50#8) : t = 80 := pack8_inj ht (by decide) (h.trans (by decide))
  rw [decodeWord_motion, sext8_pack8 hf, sext8_pack8 hs, sext8_pack8 ht]
  · intro hword
    simp only [List.cons.injEq, and_true] at hword
    obtain ⟨hzf, hzs, hzt⟩ := hword
    simp [(pack8_eq_zero_iff hf).mp hzf, (pack8_eq_zero_iff hs).mp hzs, (pack8_eq_zero_iff ht).mp hzt] at hstop
  · intro hword
    simp only [List.cons.injEq, and_true] at hword
    obtain ⟨hzf, hzs, hzt⟩ := hword
    simp [(pack8_eq_zero_iff hf).mp hzf, (pack8_eq_zero_iff hs).mp hzs, h80 hzt] at hturn

/-- HEIGHT's word is read back where its operand is a height (R72). -/
theorem decodeWord_height_pack8 {h : Int} (hh : 1 ≤ h ∧ h ≤ 127) :
    decodeWord [0x04, 0x00, 0x07, pack8 h] = .height h := by
  have hbyte : -128 ≤ h ∧ h ≤ 127 := ⟨by omega, hh.2⟩
  have hpos : pack8 h ≠ 0x00 := fun hz => by have := (pack8_eq_zero_iff hbyte).mp hz; omega
  have hlt : (pack8 h).toNat < 128 := by have := pack8_toNat h; omega
  rw [decodeWord_height hpos hlt, sext8_pack8 hbyte]

/-- Settles O56: one case per operation, by the form the encoder presents it in. -/
theorem decodeEncodeAgree : Obligations.DecodeEncodeAgree := by
  intro i hwf
  cases i with
  | motion f s t => exact decode_encode_word rfl rfl hwf decodeWord_motion_pack8
  | height h => exact decode_encode_word rfl rfl hwf fun ho => decodeWord_height_pack8 ((isHeight_iff h).mp ho)
  | stop => exact decode_encode_word rfl rfl hwf fun _ => by decide
  | turn => exact decode_encode_word rfl rfl hwf fun _ => by decide
  | init0 => exact decode_encode_word rfl rfl hwf fun _ => by decide
  | init1 => exact decode_encode_word rfl rfl hwf fun _ => by decide
  | init2 => exact decode_encode_word rfl rfl hwf fun ho => by cases ho
  | raw d ints =>
    refine decode_encode_word rfl rfl hwf fun ho => ?_
    simp only [Instr.hasOwnWord, Bool.and_eq_true, beq_iff_eq, List.isEmpty_iff] at ho
    obtain ⟨⟨rfl, -⟩, hdec⟩ := ho
    exact hdec
  | exit => exact decode_encode_text rfl (by decide)
  | fallback => exact decode_encode_text rfl (by decide)
  | motionMessage msg =>
    have hclass : classify msg = .motion := eq_of_beq hwf
    exact decode_encode_text rfl (by simp [decodeText, hclass])
  | heightMessage msg =>
    have hclass : classify msg = .height := eq_of_beq hwf
    exact decode_encode_text rfl (by simp [decodeText, hclass])
  | rawMessage msg =>
    have hclass : classify msg = .raw := eq_of_beq hwf
    exact decode_encode_text rfl (by simp [decodeText, hclass])
  | init | execute | encode | checksum | reset | classify => exact decode_encode_port rfl rfl hwf

end Sys2Proof
end

section
/-!
Splitting a list at a separator, as `segments` (R116) and `split` (R187) do: how many pieces there are, and that none has
the separator in it.
-/
namespace Sys2Proof

theorem length_splitOn {α : Type} [DecidableEq α] (a : α) (l : List α) : (l.splitOn a).length = l.count a + 1 := by
  induction l with
  | nil => rfl
  | cons x l ih =>
    rw [List.splitOn_cons_eq_if_modifyHead]
    by_cases hx : x = a
    · simp [hx, ih]
    · simp [hx, ih]

theorem not_mem_of_mem_splitOn {α : Type} [DecidableEq α] (a : α) (l : List α) : ∀ piece ∈ l.splitOn a, a ∉ piece := by
  induction l with
  | nil => simp
  | cons x l ih =>
    rw [List.splitOn_cons_eq_if_modifyHead]
    by_cases hx : x = a
    · simpa [hx] using ih
    · obtain ⟨p, ps, hps⟩ := List.exists_cons_of_ne_nil (List.splitOn_ne_nil a l)
      rw [hps, List.forall_mem_cons] at ih
      simpa [hps, hx, Ne.symm hx] using ih

end Sys2Proof
end

section
/-!
Obligations O7 and O8: the length and the shapes of stuffed bytes (R74, R75, R117).
-/
namespace Sys2Proof.Machine

@[simp] theorem length_block (g : List Byte) : (block g).length = g.length + 1 := rfl

theorem zero_not_mem_block {g : List Byte} (hg : 0x00#8 ∉ g) (hlen : g.length ≤ 253) : 0x00#8 ∉ block g := by
  simpa [block, hg] using (block_code_ne_zero hlen).symm

theorem zero_not_mem_stuff (p : TrailingPolicy) (raw : List Byte) : 0x00#8 ∉ stuff p raw := by
  induction raw using block_induction with
  | short g hg hlen =>
    rw [stuff_short p hg hlen]
    exact zero_not_mem_block hg hlen
  | zero g rest hg hlen ih =>
    rw [stuff_zero p hg hlen]
    exact List.not_mem_append (zero_not_mem_block hg hlen) ih
  | full g rest hg hlen ih =>
    rw [stuff_full p hg hlen]
    split <;> simp [hg, ih]

/-- The overhead of the stuffing is one byte, and at most one more per 254 raw bytes (R76). -/
theorem length_stuff_bounds (p : TrailingPolicy) (raw : List Byte) :
    raw.length + 1 ≤ (stuff p raw).length ∧ (stuff p raw).length ≤ raw.length + 1 + raw.length / 254 := by
  induction raw using block_induction with
  | short g hg hlen =>
    rw [stuff_short p hg hlen, length_block]
    omega
  | zero g rest hg hlen ih =>
    rw [stuff_zero p hg hlen]
    simp only [List.length_append, List.length_cons, length_block]
    omega
  | full g rest hg hlen ih =>
    rw [stuff_full p hg hlen]
    simp only [List.length_append, List.length_cons]
    split
    · next hend => simp [hend.1, hlen]
    · omega

/-- A Command of at most 253 elements is stuffed with one byte more (R76). -/
theorem length_stuff_of_le (p : TrailingPolicy) {raw : List Byte} (h : raw.length ≤ 253) :
    (stuff p raw).length = raw.length + 1 := by
  have := length_stuff_bounds p raw
  omega

/-! ### Segments -/

/-- Non-zero bytes join the first segment. -/
theorem segments_append {g : List Byte} (hg : 0x00#8 ∉ g) {rest s : List Byte} {ss : List (List Byte)}
    (h : segments rest = s :: ss) : segments (g ++ rest) = (g ++ s) :: ss := by
  induction g with
  | nil => exact h
  | cons b g ih =>
    obtain ⟨hb, hg'⟩ := not_or.mp (mt List.mem_cons.mpr hg)
    exact segments_nonzero (Ne.symm hb) (ih hg')

theorem exists_segments_eq_cons (raw : List Byte) : ∃ s ss, segments raw = s :: ss :=
  List.exists_cons_of_ne_nil (segments_ne_nil raw)

/-- The segments are the library's pieces between the zero bytes. -/
theorem segments_eq_splitOn (raw : List Byte) : segments raw = raw.splitOn 0x00#8 := by
  induction raw with
  | nil => rfl
  | cons b raw ih =>
    rw [List.splitOn_cons_eq_if_modifyHead, ← ih]
    by_cases hb : b = 0x00#8
    · simp [hb, segments_zero]
    · obtain ⟨s, ss, hs⟩ := exists_segments_eq_cons raw
      simp [hb, hs, segments_nonzero hb hs]

theorem segments_zero_free {g : List Byte} (hg : 0x00#8 ∉ g) : segments g = [g] := by
  rw [segments_eq_splitOn, List.splitOn_eq_singleton hg]

theorem segments_append_zero {g : List Byte} (hg : 0x00#8 ∉ g) (rest : List Byte) :
    segments (g ++ 0x00#8 :: rest) = g :: segments rest := by
  rw [segments_eq_splitOn, List.splitOn_append_cons_self_of_not_mem hg, segments_eq_splitOn]

theorem intercalate_segments (raw : List Byte) : List.intercalate [0x00#8] (segments raw) = raw := by
  rw [segments_eq_splitOn, List.intercalate_splitOn]

theorem zero_not_mem_segments (raw : List Byte) : ∀ seg ∈ segments raw, 0x00#8 ∉ seg :=
  segments_eq_splitOn raw ▸ not_mem_of_mem_splitOn _ raw

theorem length_segments (raw : List Byte) : (segments raw).length = raw.count 0x00#8 + 1 :=
  segments_eq_splitOn raw ▸ length_splitOn _ raw

/-- Pieces behind a code byte each have as many bytes as pieces joined by zero bytes, and one more. -/
theorem length_flatMap_block {ss : List (List Byte)} (h : ss ≠ []) :
    (ss.flatMap block).length = (List.intercalate [0x00#8] ss).length + 1 := by
  induction ss with
  | nil => contradiction
  | cons s ss ih =>
    cases ss with
    | nil => simp [List.intercalate_singleton]
    | cons t ts =>
      rw [List.flatMap_cons, List.length_append, ih (by simp), List.intercalate_cons_cons]
      simp only [List.length_append, length_block, List.length_singleton]
      omega

/-! ### The two definitions of STUFF (R115, R116) -/

theorem segments_eq_singleton_nil_iff (raw : List Byte) : segments raw = [[]] ↔ raw = [] := by
  constructor
  · intro h
    have := intercalate_segments raw
    rw [h] at this
    exact this.symm
  · rintro rfl
    rfl

/-- The full blocks of a segment leave the rest of the input to be stuffed by its own segments. -/
theorem encSegs_full (p : TrailingPolicy) {g : List Byte} (hlen : g.length = 254) (s : List Byte)
    (ss : List (List Byte)) :
    encSegs p ((g ++ s) :: ss) =
      0xff#8 :: g ++ if s :: ss = [[]] ∧ p = .omitBlock then [] else encSegs p (s :: ss) := by
  cases ss with
  | nil => simp [encSegs, encSeg_full hlen]
  | cons t ts => simp [encSegs_cons, encSeg_full hlen]

theorem stuff_eq_stuffBySegments (p : TrailingPolicy) (raw : List Byte) : stuff p raw = stuffBySegments p raw := by
  unfold stuffBySegments
  induction raw using block_induction with
  | short g hg hlen =>
    rw [stuff_short p hg hlen, segments_zero_free hg]
    exact (encSeg_short (by omega)).symm
  | zero g rest hg hlen ih =>
    obtain ⟨s, ss, hs⟩ := exists_segments_eq_cons rest
    rw [stuff_zero p hg hlen, ih, segments_append_zero hg, hs, encSegs_cons, encSeg_short (by omega)]
  | full g rest hg hlen ih =>
    obtain ⟨s, ss, hs⟩ := exists_segments_eq_cons rest
    rw [stuff_full p hg hlen, ih, segments_append hg hs, encSegs_full p hlen, ← hs]
    simp only [segments_eq_singleton_nil_iff]

/-- Segments shorter than 254 are one block each. -/
theorem encSegs_short (p : TrailingPolicy) {ss : List (List Byte)} (h : ∀ seg ∈ ss, seg.length < 254) :
    encSegs p ss = ss.flatMap block := by
  induction ss with
  | nil => rfl
  | cons s ss ih =>
    obtain ⟨hs, hss⟩ := List.forall_mem_cons.mp h
    cases ss with
    | nil => simp [encSegs, encSeg_short hs]
    | cons t ts =>
      rw [encSegs_cons, encSeg_short hs, ih hss]
      rfl

theorem stuff_of_short_segments (p : TrailingPolicy) {raw : List Byte} (h : ∀ seg ∈ segments raw, seg.length < 254) :
    stuff p raw = (segments raw).flatMap block := by
  rw [stuff_eq_stuffBySegments, stuffBySegments, encSegs_short p h]

/-- Settles O10: the definitions agree by induction over the blocks, and the segments are the library's pieces. -/
theorem stuffingBySegmentsAgrees : Obligations.StuffingBySegmentsAgrees :=
  fun p raw => ⟨stuff_eq_stuffBySegments p raw, intercalate_segments raw, zero_not_mem_segments raw,
    length_segments raw, stuff_of_short_segments p⟩

/-- Settles O7: the blocks are free of zero bytes, and their number gives the bounds. -/
theorem stuffedBytesZeroFreeAndBounded : Obligations.StuffedBytesZeroFreeAndBounded := by
  intro p raw
  obtain ⟨hlower, hupper⟩ := length_stuff_bounds p raw
  refine ⟨zero_not_mem_stuff p raw, stuff_ne_nil p raw, hlower, hupper, fun hshort => ?_⟩
  rw [stuff_of_short_segments p hshort, length_flatMap_block (segments_ne_nil raw), intercalate_segments]

/-! ### Shapes -/

theorem takeWhile_nonzero {g : List Byte} (hg : 0x00#8 ∉ g) (rest : List Byte) :
    (g ++ rest).takeWhile (· ≠ 0x00#8) = g ++ rest.takeWhile (· ≠ 0x00#8) := by
  refine List.takeWhile_append_of_pos fun b hb => ?_
  simpa using fun hz : b = 0x00#8 => hg (hz ▸ hb)

/-- The first byte is the code of the first block. -/
theorem head_stuff (p : TrailingPolicy) (raw : List Byte) :
    (stuff p raw).head? = some (BitVec.ofNat 8 (min (raw.takeWhile (· ≠ 0x00#8)).length 254 + 1)) := by
  cases raw using block_induction with
  | short g hg hlen =>
    have htake := takeWhile_nonzero hg []
    simp only [List.append_nil, List.takeWhile_nil] at htake
    rw [stuff_short p hg hlen, htake, Nat.min_eq_left (by omega)]
    rfl
  | zero g rest hg hlen =>
    rw [stuff_zero p hg hlen, takeWhile_nonzero hg, List.takeWhile_cons_of_neg (by simp), List.append_nil,
      Nat.min_eq_left (by omega)]
    rfl
  | full g rest hg hlen =>
    rw [stuff_full p hg hlen, takeWhile_nonzero hg, Nat.min_eq_right (by simp [hlen])]
    rfl

theorem stuff_replicate_zero (p : TrailingPolicy) (z : Nat) :
    stuff p (List.replicate z 0x00#8) = List.replicate (z + 1) 0x01#8 := by
  induction z with
  | zero => exact stuff_short p (g := []) (by simp) (by simp)
  | succ z ih =>
    have hzero := stuff_zero p (g := []) (by simp) (by simp) (List.replicate z 0x00#8)
    rw [ih] at hzero
    exact hzero

/-- Settles O8: the shapes are the three kinds of blocks, read off for these inputs. -/
theorem stuffedShapes : Obligations.StuffedShapes := by
  refine ⟨head_stuff, stuff_replicate_zero, fun p raw hg hlen => stuff_short p hg hlen, fun raw hg hlen => ?_⟩
  have hend (p : TrailingPolicy) := stuff_full p hg hlen []
  simp only [List.append_nil] at hend
  refine ⟨(hend .omitBlock).trans (by simp), (hend .emitBlock).trans ?_, fun p => ⟨?_, fun b hb => ?_⟩⟩
  · rw [if_neg (by simp)]
    exact congrArg _ (stuff_replicate_zero .emitBlock 0)
  · rw [stuff_full p hg hlen, if_neg (by simp)]
    exact congrArg _ (stuff_replicate_zero p 1)
  · rw [stuff_full p hg hlen, if_neg (by simp), stuff_short p (by simpa using Ne.symm hb) (by simp)]
    rfl

end Sys2Proof.Machine
end

section
/-!
Obligations O11, O12 and O13: frames and their hex texts (R77, R119 to R122).
-/
namespace Sys2Proof.Machine

/-! ### RENDER and un-hexing (R61, R77, R121) -/

@[simp] theorem length_render (bs : List Byte) : (render bs).length = 2 * bs.length := by
  induction bs with
  | nil => rfl
  | cons b bs ih =>
    rw [render_cons]
    simp only [List.length_cons, ih]
    omega

@[simp] theorem render_append (a b : List Byte) : render (a ++ b) = render a ++ render b := List.flatMap_append

theorem highNibble_lt (b : Byte) : highNibble b < 16 := by
  have := b.isLt
  unfold highNibble
  omega

theorem lowNibble_lt (b : Byte) : lowNibble b < 16 := Nat.mod_lt _ (by decide)

theorem byte_of_nibbles (b : Byte) : BitVec.ofNat 8 (16 * highNibble b + lowNibble b) = b := by
  rw [highNibble, lowNibble, Nat.div_add_mod]
  exact BitVec.ofNat_toNat _ _

theorem unhex_render (bs : List Byte) : unhex (render bs) = some bs := by
  induction bs with
  | nil => rfl
  | cons b bs ih =>
    simp only [render_cons, unhex, hexValue_hexDigit _ (highNibble_lt b), hexValue_hexDigit _ (lowNibble_lt b), ih,
      byte_of_nibbles]

theorem hexDigit_mem_hexChars : ∀ n < 16, hexDigit n ∈ hexChars := by decide

theorem mem_hexChars_of_mem_render {c : Char} {bs : List Byte} (hc : c ∈ render bs) : c ∈ hexChars := by
  obtain ⟨b, -, hb⟩ := List.mem_flatMap.mp hc
  obtain rfl | rfl : c = hexDigit (highNibble b) ∨ c = hexDigit (lowNibble b) := by simpa [hexByte] using hb
  · exact hexDigit_mem_hexChars _ (highNibble_lt b)
  · exact hexDigit_mem_hexChars _ (lowNibble_lt b)

/-- Settles O13: two digits per byte, each with its nibble as its value. -/
theorem unhexRecoversFrame : Obligations.UnhexRecoversFrame :=
  ⟨fun bs => ⟨length_render bs, unhex_render bs, fun _ hc => mem_hexChars_of_mem_render hc⟩,
    fun cmd => unhex_render (frameOf cmd)⟩

/-! ### Frames -/

/-- Settles O12: the parts of a frame, with the bounds of the stuffed bytes for its hex text. -/
theorem frameShape : Obligations.FrameShape := by
  intro cmd
  have hpos : 0 < (stuffedOf cmd).length := List.length_pos_iff.mpr (stuff_ne_nil _ _)
  have hlength : (hexOf cmd).length = 2 * (stuffedOf cmd).length + 4 := by
    simp only [hexOf, frameOf, length_render, List.length_append, List.length_cons, List.length_nil]
    omega
  have hends : ['0', '0'] <:+ hexOf cmd := by
    have hsplit : frameOf cmd = (stuffedOf cmd ++ [checksum (stuffedOf cmd)]) ++ [0x00#8] := by simp [frameOf]
    rw [hexOf, hsplit, render_append]
    exact List.suffix_append _ _
  refine ⟨rfl, zero_not_mem_stuff _ _, hlength, by omega, hends, fun hshort => ?_⟩
  have hstuffed : (stuffedOf cmd).length = cmd.length + 1 := by
    simpa [stuffedOf] using length_stuff_of_le Config.cobsTrailingPolicy (raw := cmd.map pack8) (by simpa using hshort)
  omega

/-- UNSTUFF makes the stuffed bytes of a Command stand for its packed elements alone. -/
theorem map_pack8_eq_of_stuffedOf_eq {a b : Command} (h : stuffedOf a = stuffedOf b) : a.map pack8 = b.map pack8 := by
  have hunstuff := congrArg unstuff h
  simpa [stuffedOf, stuffingIsReversible _ _] using hunstuff

/-- Packing loses nothing of a valid Command (R73). -/
theorem eq_of_map_pack8_eq {a b : Command} (ha : Valid a) (hb : Valid b) (h : a.map pack8 = b.map pack8) : a = b := by
  have hsext {c : Command} (hc : Valid c) : (c.map pack8).map sext8 = c := by
    rw [List.map_map]
    exact (List.map_congr_left (g := id) fun v hv => sext8_pack8 (hc v hv)).trans (List.map_id c)
  rw [← hsext ha, h, hsext hb]

theorem frameOf_eq_of_hexOf_eq {a b : Command} (h : hexOf a = hexOf b) : frameOf a = frameOf b := by
  have hunhex := congrArg unhex h
  simpa [hexOf, unhex_render] using hunhex

/-- Settles O11: un-hexing, then unstuffing, then `sext8` recover the Command. -/
theorem encodingIsInjective : Obligations.EncodingIsInjective := by
  intro a b ha hb h
  have hframe : frameOf a = frameOf b := h.elim id frameOf_eq_of_hexOf_eq
  have hstuffed : stuffedOf a = stuffedOf b := (List.append_inj' hframe rfl).1
  exact eq_of_map_pack8_eq ha hb (map_pack8_eq_of_stuffedOf_eq hstuffed)

end Sys2Proof.Machine
end

section
/-!
Obligation O27: the frames of the typed commands (42_command_model.md section 3).
-/
namespace Sys2Proof.Machine

/-- A height command's one zero byte is its second element (R72). -/
theorem stuffedOf_height {h : Int} (hh : 1 ≤ h ∧ h ≤ 127) :
    stuffedOf [4, 0, 7, h] = [0x02, 0x04, 0x03, 0x07, pack8 h] := by
  have hpos : pack8 h ≠ 0x00#8 := fun hz => by
    have := (pack8_eq_zero_iff ⟨by omega, hh.2⟩).mp hz
    omega
  have hlast : stuff Config.cobsTrailingPolicy [0x07, pack8 h] = block [0x07, pack8 h] :=
    stuff_short _ (by simpa using Ne.symm hpos) (by simp)
  have hzero := stuff_zero Config.cobsTrailingPolicy (g := [0x04]) (by decide) (by decide) [0x07, pack8 h]
  rw [hlast] at hzero
  exact hzero

/-- The checksum of a height command (R102). -/
theorem checksum_height {h : Int} (hh : 1 ≤ h ∧ h ≤ 127) :
    checksum [0x02, 0x04, 0x03, 0x07, pack8 h] = BitVec.ofInt 8 (17 + h) := by
  have hbyte := pack8_toNat h
  apply BitVec.eq_of_toNat_eq
  rw [checksum_toNat, BitVec.toNat_ofInt]
  simp
  omega

theorem stuffRest_end (p : TrailingPolicy) (blk : List Byte) : stuffRest p ⟨[], blk, true⟩ [] = block blk := rfl

/-- One turn of STUFF's loop on a zero byte. -/
theorem stuffRest_cons_zero (p : TrailingPolicy) (blk rest : List Byte) :
    stuffRest p ⟨[], blk, true⟩ (0x00#8 :: rest) = block blk ++ stuffRest p ⟨[], [], true⟩ rest :=
  stuffRest_out p (block blk) [] true rest

/-- One turn of STUFF's loop on another byte, below a full block. -/
theorem stuffRest_cons_nonzero (p : TrailingPolicy) {b : Byte} (hb : b ≠ 0x00#8) {blk : List Byte}
    (hlen : blk.length + 1 ≤ 253) (rest : List Byte) :
    stuffRest p ⟨[], blk, true⟩ (b :: rest) = stuffRest p ⟨[], blk ++ [b], true⟩ rest :=
  stuffRest_grow p (g := [b]) (by simpa using Ne.symm hb) blk rest hlen

/-- The eight shapes of a motion command's stuffed bytes, by which of the three operand bytes are zero. -/
theorem stuff_motion (p : TrailingPolicy) (f s t : Byte) :
    stuff p [0x06, f, s, t] =
      if f ≠ 0x00 ∧ s ≠ 0x00 ∧ t ≠ 0x00 then [0x05, 0x06, f, s, t]
      else if f ≠ 0x00 ∧ s ≠ 0x00 then [0x04, 0x06, f, s, 0x01]
      else if f ≠ 0x00 ∧ t ≠ 0x00 then [0x03, 0x06, f, 0x02, t]
      else if s ≠ 0x00 ∧ t ≠ 0x00 then [0x02, 0x06, 0x03, s, t]
      else if f ≠ 0x00 then [0x03, 0x06, f, 0x01, 0x01]
      else if s ≠ 0x00 then [0x02, 0x06, 0x02, s, 0x01]
      else if t ≠ 0x00 then [0x02, 0x06, 0x01, 0x02, t]
      else [0x02, 0x06, 0x01, 0x01, 0x01] := by
  rw [stuff_eq_stuffRest, stuffRest_cons_nonzero p (by decide) (by decide)]
  -- Each case is the same run: the rules for one turn of the loop rewrite the three operand bytes in order.
  by_cases hf : f = 0x00#8 <;> by_cases hs : s = 0x00#8 <;> by_cases ht : t = 0x00#8
  all_goals simp [hf, hs, ht, stuffRest_cons_zero, stuffRest_cons_nonzero, stuffRest_end, block]

/-- Settles O27: the one zero byte of a height command, and the zero bytes of a motion command, which are those of its
zero operands. -/
theorem typedFrameShapes : Obligations.TypedFrameShapes := by
  refine ⟨fun h hlo hhi => ?_, fun f s t hf1 hf2 hs1 hs2 ht1 ht2 => ⟨rfl, ?_⟩⟩
  · refine ⟨?_, ?_, by omega, by omega⟩
    · rw [frameOf, stuffedOf_height ⟨hlo, hhi⟩, checksum_height ⟨hlo, hhi⟩]
      rfl
    · have := pack8_toNat h
      omega
  · have hshape := stuff_motion Config.cobsTrailingPolicy (pack8 f) (pack8 s) (pack8 t)
    simp only [ne_eq, BitVec.ofNat_eq_ofNat, pack8_eq_zero_iff ⟨hf1, hf2⟩, pack8_eq_zero_iff ⟨hs1, hs2⟩,
      pack8_eq_zero_iff ⟨ht1, ht2⟩] at hshape
    exact hshape

end Sys2Proof.Machine
end

section
/-!
The rules of an accepted request (R171, R210, R213): the state its operation leaves, finished. Then CHECKSUM and ENCODE:
obligations O1, O4, O6, O14, O15 and O16.
-/
namespace Sys2Proof.Machine

/-! ### Accepted requests -/

theorem answered_request_accepting {s : State} (ha : Accepting s) (op : State → State × OpResult) :
    answered (request op s) = .next ((op s).1.finish (op s).2) :=
  (answered_request_iff op s _).mpr ⟨ha, rfl⟩

theorem answered_requestCommand_accepting {s : State} {cmd : Command} (ha : Accepting s) (hf : s.fits cmd = true)
    (op : State → State × OpResult) : answered (requestCommand cmd op s) = .next ((op s).1.finish (op s).2) :=
  (answered_requestCommand_iff cmd op s _).mpr ⟨hf, ha, rfl⟩

/-- The phases passed through on the way leave no trace (R27). -/
theorem finish_enter {s : State} (h : s.phase = .idle) (p : Phase) (r : OpResult) :
    (s.enter p).finish r = { s with result := some r } := by
  ext1 <;> simp [h]

/-- A `RangeError` before anything was built (R201, R210). -/
theorem finish_dropBuffers {s : State} (h : s.phase = .idle) (p : Phase) (e : Err) :
    ((s.enter p).dropBuffers).finish (.err e) = Rejected s e :=
  finish_enter (s := s.dropBuffers) h p (.err e)

/-- A `RangeError` after the Command was loaded (R21, R201, R210). -/
theorem finish_load_dropBuffers {s : State} (h : s.phase = .idle) (cmd : Command) (p : Phase) (e : Err) :
    (((s.load cmd).enter p).dropBuffers).finish (.err e) = { Rejected s e with cmd := some cmd } :=
  finish_dropBuffers (s := s.load cmd) h p e

/-! ### CHECKSUM (R100, R103) -/

/-- Settles O1: CHECKSUM's operation changes no field, and its value is that of `checksum`. -/
theorem checksumRequestReturnsSumPlusOne : Obligations.ChecksumRequestReturnsSumPlusOne := by
  intro s bs ha
  have hfinish : s.finish (.ok (.byte (checksum bs))) = { s with result := some (.ok (.byte (checksum bs))) } :=
    finish_enter ha.2 s.phase _
  exact (answered_request_accepting ha (checksumOp bs)).trans (congrArg _ hfinish)

theorem checksum_eq_zero_iff (bs : List Byte) : checksum bs = 0x00#8 ↔ byteSum bs % 256 = 255 := by
  rw [← BitVec.toNat_inj, checksum_toNat, BitVec.toNat_ofNat]
  omega

/-- Settles O4: the sum decides the checksum byte, which stands in the frame as it is. -/
theorem checksumZeroExactlyAtSum255 : Obligations.ChecksumZeroExactlyAtSum255 := by
  refine ⟨checksum_eq_zero_iff, fun cmd hsum => ?_, by decide⟩
  rw [frameOf, (checksum_eq_zero_iff _).mpr hsum]

/-! ### ENCODE (R110 to R112, R122) -/

/-- RANGE's answer to a Command that is not valid, with the lowest failing element (R112, D9). -/
theorem codecWith_lowest_failing (p : TrailingPolicy) {cmd : Command} (h : ¬ Valid cmd) :
    ∃ i v, codecWith p cmd = .error (.range (.element i) v .signedByte) ∧ cmd[i]? = some v ∧
      (v < -128 ∨ 127 < v) ∧ Valid (cmd.take i) := by
  obtain ⟨i, v, herr, hi, hout, hbefore⟩ := codecWith_invalid p h
  exact ⟨i, v, herr, hi, by omega, hbefore⟩

/-- Settles O6: a valid Command passes RANGE, any other is answered with its lowest failing element. -/
theorem encodeSucceedsExactlyOnSignedBytes : Obligations.EncodeSucceedsExactlyOnSignedBytes := by
  refine fun p cmd => ⟨fun hv => ⟨_, codecWith_valid p hv⟩, fun hn => ?_⟩
  obtain ⟨i, v, herr, hi, hout, hbefore⟩ := codecWith_lowest_failing p hn
  refine ⟨i, v, herr, hi, hout, fun j w hj hw => hbefore w ?_⟩
  exact List.mem_of_getElem? ((List.getElem?_take_of_lt hj).trans hw)

theorem encodeOp_of_codec_error {cmd : Command} {e : Err} (h : codec cmd = .error e) (s : State) :
    encodeOp cmd s = (((s.load cmd).enter .range).dropBuffers, .err e) := by
  simp [encodeOp, h]

theorem executeOp_of_codec_error {cmd : Command} {e : Err} (h : codec cmd = .error e) (d : Text) (s : State) :
    executeOp cmd d s = (((s.load cmd).enter .range).dropBuffers, .err e) := by
  simp [executeOp, h]

/-- Settles O14: the stages fill the buffers, and the phases passed through leave no trace. -/
theorem encodeFillsBuffers : Obligations.EncodeFillsBuffers := by
  intro s cmd ha hf hv
  have hnext := answered_requestCommand_accepting ha hf (encodeOp cmd)
  rw [encodeOp_valid hv] at hnext
  exact hnext.trans (congrArg _ (finish_enter (s := Encodes s cmd) ha.2 .render _))

/-- Settles O15: the codec's error drops the buffers of the loaded state. -/
theorem encodeRejectsOutOfRange : Obligations.EncodeRejectsOutOfRange := by
  intro s cmd ha hf hn
  obtain ⟨i, v, herr, hi, hout, -⟩ := codecWith_lowest_failing Config.cobsTrailingPolicy hn
  have hnext := answered_requestCommand_accepting ha hf (encodeOp cmd)
  rw [encodeOp_of_codec_error herr, finish_load_dropBuffers ha.2] at hnext
  exact ⟨i, v, hi, hout, hnext⟩

/-- Settles O16: in both outcomes of the codec, RESULT and the buffers are functions of the Command. -/
theorem encodeReadsNoState : Obligations.EncodeReadsNoState := by
  intro s s' t t' cmd ht ht'
  obtain ⟨-, rfl⟩ := exec_request rfl ht
  obtain ⟨-, rfl⟩ := exec_request rfl ht'
  by_cases hv : Valid cmd
  · simp [opOf, encodeOp_valid hv, Encodes]
  · obtain ⟨i, v, herr, -⟩ := codecWith_lowest_failing Config.cobsTrailingPolicy hv
    simp [opOf, encodeOp_of_codec_error herr]

end Sys2Proof.Machine
end

section
/-!
The sending operations (42_command_model.md, 43_motion_controller.md): obligations O17 to O20, O22 to O26, O28 and O29.
-/
namespace Sys2Proof.Machine

/-! ### What the send primitive leaves, finished (R160, R164, R166) -/

theorem finish_executeOp_valid {s : State} {cmd : Command} (hv : Valid cmd) (d : Text) :
    (executeOp cmd d s).1.finish (executeOp cmd d s).2 = { Sent s cmd with result := some (sentResult s cmd) } := by
  rw [executeOp_valid hv, finish_sent]

theorem finish_executeOp_error {s : State} (hp : s.phase = .idle) {cmd : Command} {e : Err} (h : codec cmd = .error e)
    (d : Text) :
    (executeOp cmd d s).1.finish (executeOp cmd d s).2 = { Rejected s e with cmd := some cmd } := by
  rw [executeOp_of_codec_error h, finish_load_dropBuffers hp]

/-- SEND_RAW is EXECUTE once it is finished: only a phase passed through differs (R165). -/
theorem finish_sendRawOp (s : State) (d : Text) (cmd : Command) :
    (sendRawOp d cmd s).1.finish (sendRawOp d cmd s).2 = (executeOp cmd d s).1.finish (executeOp cmd d s).2 ∧
      (sendRawOp d cmd s).2 = (executeOp cmd d s).2 := by
  have hraw : sendRawOp d cmd s = executeOp cmd d (s.enter .validate) := executeBuilt_ok cmd d s
  rw [hraw]
  by_cases hv : Valid cmd
  · rw [executeOp_valid hv, executeOp_valid hv]
    exact ⟨rfl, rfl⟩
  · obtain ⟨i, v, herr, -⟩ := codecWith_lowest_failing Config.cobsTrailingPolicy hv
    rw [executeOp_of_codec_error herr, executeOp_of_codec_error herr]
    exact ⟨rfl, rfl⟩

/-! ### Serializers (R141, R142) -/

theorem isSignedByte_eq_false {v : Int} (h : v < -128 ∨ 127 < v) : isSignedByte v = false := by
  rw [← Bool.not_eq_true, isSignedByte_iff]
  omega

theorem isHeight_eq_false {v : Int} (h : v < 1 ∨ 127 < v) : isHeight v = false := by
  rw [← Bool.not_eq_true, isHeight_iff]
  omega

theorem buildMotion_bad_fwd {f : Int} (hf : f < -128 ∨ 127 < f) (s t : Int) :
    buildMotion f s t = .error (.range .fwd f .signedByte) := by
  simp [buildMotion, isSignedByte_eq_false hf]

theorem buildMotion_bad_strafe {f s : Int} (hf : -128 ≤ f ∧ f ≤ 127) (hs : s < -128 ∨ 127 < s) (t : Int) :
    buildMotion f s t = .error (.range .strafe s .signedByte) := by
  simp [buildMotion, (isSignedByte_iff f).mpr hf, isSignedByte_eq_false hs]

theorem buildMotion_bad_turn {f s t : Int} (hf : -128 ≤ f ∧ f ≤ 127) (hs : -128 ≤ s ∧ s ≤ 127)
    (ht : t < -128 ∨ 127 < t) : buildMotion f s t = .error (.range .turn t .signedByte) := by
  simp [buildMotion, (isSignedByte_iff f).mpr hf, (isSignedByte_iff s).mpr hs, isSignedByte_eq_false ht]

theorem buildHeight_bad {h : Int} (hh : h < 1 ∨ 127 < h) : buildHeight h = .error (.range .height h .height) := by
  simp [buildHeight, isHeight_eq_false hh]

theorem valid_motion {f s t : Int} (hf : -128 ≤ f ∧ f ≤ 127) (hs : -128 ≤ s ∧ s ≤ 127) (ht : -128 ≤ t ∧ t ≤ 127) :
    Valid [6, f, s, t] := by
  simp [Valid, hf, hs, ht]

theorem valid_height {h : Int} (hh : 1 ≤ h ∧ h ≤ 127) : Valid [4, 0, 7, h] := by
  simp [Valid]
  omega

/-- Settles O28: what the serializers return is valid, and their errors are those of their cases. -/
theorem typedKindsNeverFailInCodec : Obligations.TypedKindsNeverFailInCodec := by
  refine ⟨fun f s t cmd hok => ?_, fun h cmd hok => ?_, ⟨_, codec_valid valid_stop⟩, ⟨_, codec_valid valid_turn⟩,
    fun f s t e herr => ?_, fun h e herr => ?_⟩
  · obtain ⟨hv, hb⟩ | ⟨x, v, -, hb⟩ := buildMotion_cases f s t
    · obtain rfl : [6, f, s, t] = cmd := Except.ok.inj (hb.symm.trans hok)
      exact ⟨hv, _, codec_valid hv⟩
    · cases hb.symm.trans hok
  · obtain ⟨-, hv, hb⟩ | hb := buildHeight_cases h
    · obtain rfl : [4, 0, 7, h] = cmd := Except.ok.inj (hb.symm.trans hok)
      exact ⟨hv, _, codec_valid hv⟩
    · cases hb.symm.trans hok
  · obtain ⟨-, hb⟩ | ⟨x, v, hx, hb⟩ := buildMotion_cases f s t
    · cases hb.symm.trans herr
    · exact ⟨x, v, hx, (Except.error.inj (hb.symm.trans herr)).symm⟩
  · obtain ⟨-, -, hb⟩ | hb := buildHeight_cases h
    · cases hb.symm.trans herr
    · exact (Except.error.inj (hb.symm.trans herr)).symm

/-! ### MOTION (R164) -/

/-- Settles O17: MOTION hands over what its serializer builds. -/
theorem motionSendsItsCommand : Obligations.MotionSendsItsCommand := by
  intro s fwd strafe turn ha hf1 hf2 hs1 hs2 ht1 ht2
  exact exec_motion_accepting ha (buildMotion_ok ⟨hf1, hf2⟩ ⟨hs1, hs2⟩ ⟨ht1, ht2⟩)
    (valid_motion ⟨hf1, hf2⟩ ⟨hs1, hs2⟩ ⟨ht1, ht2⟩)

/-- MOVE_MOTION of operands its serializer rejects (R164). -/
theorem moveMotionOp_error {fwd strafe turn : Int} {e : Err} (h : buildMotion fwd strafe turn = .error e) (s : State) :
    moveMotionOp fwd strafe turn s = ((s.enter .validate).dropBuffers, .err e) := by
  rw [moveMotionOp, h, executeBuilt_error]

theorem exec_motion_rejected {s : State} (ha : Accepting s) {fwd strafe turn : Int} {e : Err}
    (h : buildMotion fwd strafe turn = .error e) : exec (.motion fwd strafe turn) s = .next (Rejected s e) := by
  have hnext := answered_request_accepting ha (moveMotionOp fwd strafe turn)
  rwa [moveMotionOp_error h, finish_dropBuffers ha.2] at hnext

/-- Settles O18: the serializer reports the first operand out of range. -/
theorem motionRejectsOutOfRange : Obligations.MotionRejectsOutOfRange := by
  intro s fwd strafe turn ha
  exact ⟨fun hf => exec_motion_rejected ha (buildMotion_bad_fwd hf _ _),
    fun hf1 hf2 hs => exec_motion_rejected ha (buildMotion_bad_strafe ⟨hf1, hf2⟩ hs _),
    fun hf1 hf2 hs1 hs2 ht => exec_motion_rejected ha (buildMotion_bad_turn ⟨hf1, hf2⟩ ⟨hs1, hs2⟩ ht)⟩

/-! ### HEIGHT (R166) -/

/-- SET_HEIGHT of a height: one hand-over, and CUR_HEIGHT if it was accepted. -/
theorem setHeightOp_valid {h : Int} (hh : 1 ≤ h ∧ h ≤ 127) (s : State) :
    setHeightOp h s = ({ Sent s [4, 0, 7, h] with
      phase := .delay
      curHeight := if s.sinkAnswer = .ok then h else s.curHeight }, sentResult s [4, 0, 7, h]) := by
  simp only [setHeightOp, buildHeight_ok hh, executeBuilt_valid (valid_height hh), sentResult_isOk]
  cases s.sinkAnswer <;> rfl

theorem setHeightOp_error {h : Int} (hh : h < 1 ∨ 127 < h) (s : State) :
    setHeightOp h s = ((s.enter .validate).dropBuffers, .err (.range .height h .height)) := by
  simp [setHeightOp, buildHeight_bad hh, executeBuilt_error, OpResult.isOk]

theorem finish_setHeightOp_valid {s : State} {h : Int} (hh : 1 ≤ h ∧ h ≤ 127) :
    (setHeightOp h s).1.finish (setHeightOp h s).2 = { Sent s [4, 0, 7, h] with
      result := some (sentResult s [4, 0, 7, h])
      curHeight := if s.sinkAnswer = .ok then h else s.curHeight } := by
  rw [setHeightOp_valid hh]
  exact finish_enter
    (s := { Sent s [4, 0, 7, h] with curHeight := if s.sinkAnswer = .ok then h else s.curHeight }) rfl _ _

/-- Settles O19: one hand-over of the height's Command, then CUR_HEIGHT by the sink's answer. -/
theorem heightSendsThenUpdates : Obligations.HeightSendsThenUpdates := by
  intro s height ha hlo hhi
  exact (answered_request_accepting ha _).trans (congrArg _ (finish_setHeightOp_valid ⟨hlo, hhi⟩))

/-- Settles O20: the serializer rejects the operand before anything is built. -/
theorem heightRejectsOutOfRange : Obligations.HeightRejectsOutOfRange := by
  intro s height ha hout
  have hnext := answered_request_accepting ha (setHeightOp height)
  rwa [setHeightOp_error hout, finish_dropBuffers ha.2] at hnext

/-! ### RAW and EXECUTE (R160, R165) -/

theorem exec_execute_accepting {s : State} {cmd : Command} (ha : Accepting s) (hf : s.fits cmd = true) (d : Text) :
    exec (.execute cmd d) s = .next ((executeOp cmd d s).1.finish (executeOp cmd d s).2) :=
  answered_requestCommand_accepting ha hf _

theorem exec_raw_accepting {s : State} {cmd : Command} (ha : Accepting s) (hf : s.fits cmd = true) (d : Text) :
    exec (.raw d cmd) s = .next ((executeOp cmd d s).1.finish (executeOp cmd d s).2) :=
  (answered_requestCommand_accepting ha hf _).trans (congrArg _ (finish_sendRawOp s d cmd).1)

/-- Settles O22: both are one hand-over of the Command. -/
theorem rawAndExecuteSendVerbatim : Obligations.RawAndExecuteSendVerbatim := by
  intro s d cmd ha hf hv
  rw [exec_raw_accepting ha hf, exec_execute_accepting ha hf, finish_executeOp_valid hv]
  exact ⟨rfl, rfl⟩

/-- Settles O23: both end in the codec's error. -/
theorem rawAndExecuteRejectOutOfRange : Obligations.RawAndExecuteRejectOutOfRange := by
  intro s d cmd ha hf hn
  obtain ⟨i, v, herr, hi, hout, hbefore⟩ := codecWith_lowest_failing Config.cobsTrailingPolicy hn
  rw [exec_raw_accepting ha hf, exec_execute_accepting ha hf, finish_executeOp_error ha.2 herr]
  exact ⟨i, v, hi, hout, hbefore, rfl, rfl⟩

/-- Settles O29: RAW and HEIGHT hand over the same Command, and only HEIGHT goes on to CUR_HEIGHT. -/
theorem rawHeightDoesNotUpdateHeight : Obligations.RawHeightDoesNotUpdateHeight := by
  intro s t u d h ha hf hlo hhi hok ht hu
  have hraw := (rawAndExecuteSendVerbatim s d [4, 0, 7, h] ha hf (valid_height ⟨hlo, hhi⟩)).1
  have hheight := heightSendsThenUpdates s h ha hlo hhi
  obtain rfl := Host.Outcome.next.inj (ht.symm.trans hraw)
  obtain rfl := Host.Outcome.next.inj (hu.symm.trans hheight)
  exact ⟨rfl, rfl, rfl, if_pos hok⟩

/-! ### INIT and its steps (R170) -/

theorem answered_initStepOp {s : State} (ha : Accepting s) (k : Fin 3) :
    answered (request (initStepOp k) s) = .next { Sent s (initCommand k) with
      seqIdx := some (if s.sinkAnswer = .ok then k.succ else k.castSucc)
      result := some (sentResult s (initCommand k)) } := by
  have hnext := answered_request_accepting ha (initStepOp k)
  rw [initStepOp_eq] at hnext
  exact hnext.trans (congrArg _ (finish_enter (s := { Sent s (initCommand k) with
    seqIdx := some (if s.sinkAnswer = .ok then k.succ else k.castSucc) }) rfl _ _))

/-- Settles O26: the three indices of the one rule about a step of INIT. -/
theorem initStepsSendTheirCommand : Obligations.InitStepsSendTheirCommand :=
  fun _ ha => ⟨answered_initStepOp ha 0, answered_initStepOp ha 1, answered_initStepOp ha 2⟩

theorem initLoop_accepted {s : State} (h : s.sinkAnswer = .ok) (k : Fin 3) (ks : List (Fin 3)) :
    initLoop (k :: ks) s = initLoop ks (initSent s k k.succ) :=
  (initLoop_cons k ks s).trans (if_pos h)

theorem initLoop_failed {s : State} (h : s.sinkAnswer = .fail) (k : Fin 3) (ks : List (Fin 3)) :
    initLoop (k :: ks) s = (initSent s k k.castSucc, .err .transport) :=
  (initLoop_cons k ks s).trans (if_neg (by simp [h]))

theorem exec_init_accepting {s : State} (ha : Accepting s) {x : State × OpResult} (h : initOp s = x) :
    exec .init s = .next (x.1.finish x.2) :=
  h ▸ answered_request_accepting ha initOp

/-- INIT after an accepted first hand-over (R170). -/
theorem initOp_after_one {s : State} (h0 : s.sinkAnswer = .ok) : initOp s = initLoop [1, 2] (initSent s 0 1) :=
  initLoop_accepted h0 0 [1, 2]

/-- INIT after two accepted hand-overs (R170). -/
theorem initOp_after_two {s : State} (h0 : s.sinkAnswer = .ok) (h1 : (Sent s [16]).sinkAnswer = .ok) :
    initOp s = initLoop [2] (initSent (initSent s 0 1) 1 2) :=
  (initOp_after_one h0).trans (initLoop_accepted (s := initSent s 0 1) h1 1 [2])

/-- Settles O24: three turns of INIT's loop, each accepted. -/
theorem initSendsThreeInOrder : Obligations.InitSendsThreeInOrder := by
  intro s ha h0 h1 h2
  have hlast := initLoop_accepted (s := initSent (initSent s 0 1) 1 2) h2 2 []
  exact exec_init_accepting ha ((initOp_after_two h0 h1).trans hlast)

/-- Settles O25: INIT's loop after no, one or two accepted hand-overs, and the failed turn. -/
theorem initAbortsAtFirstFailure : Obligations.InitAbortsAtFirstFailure := by
  intro s ha
  refine ⟨fun h0 => ?_, fun h0 h1 => ?_, fun h0 h1 h2 => ?_⟩
  · exact exec_init_accepting ha (initLoop_failed h0 0 [1, 2])
  · have hlast := initLoop_failed (s := initSent s 0 1) h1 1 [2]
    exact exec_init_accepting ha ((initOp_after_one h0).trans hlast)
  · have hlast := initLoop_failed (s := initSent (initSent s 0 1) 1 2) h2 2 []
    exact exec_init_accepting ha ((initOp_after_two h0 h1).trans hlast)

end Sys2Proof.Machine
end

section
/-!
What holds of every operation that is answered (60_exceptions.md, 70_reset_and_hazards.md): obligations O32 to O37, O40 and
O41, and the frames O52 and O53.
-/
namespace Sys2Proof.Machine

/-! ### Errors -/

/-- Settles O32: the operation behind the request ended in that `RangeError`. -/
theorem rangeErrorLeavesSessionAlone : Obligations.RangeErrorLeavesSessionAlone := by
  intro s t i x v c hi hexec hresult
  obtain ⟨ha, rfl⟩ := exec_request hi hexec
  rw [finish_result] at hresult
  obtain ⟨hheight, hfatal, hlog, hseq, hinputs, hdraws, hbuffers⟩ :=
    (opSpec_of_request hi ha.1).range x v c (Option.some.inj hresult)
  simp only [finish_curHeight, finish_fatal, finish_txlog, finish_phase, finish_seqIdx, finish_sinkInputs,
    finish_sinkDraws, finish_rawb, finish_stuffed, finish_chk, finish_frame, finish_hex]
  exact ⟨hheight, hfatal, hlog, trivial, hseq, hinputs, hdraws, hbuffers⟩

/-- Settles O33: the block returns neither kind, and the front end no `EncodingError`. -/
theorem encodingErrorNeverReturned : Obligations.EncodingErrorNeverReturned := by
  intro s t i hexec
  cases exec_effect hexec with
  | reset _ _ => simp
  | @frontEnd _ _ r hr => exact ⟨id, fun h => hr.elim (fun heq => heq ▸ h) (fun hne => absurd h hne), fun _ => id⟩
  | @block x _ _ r _ hx hr _ =>
    obtain ⟨hencoding, hparse⟩ := hx.kinds
    have hresult {e : Err} (hne : x.2 ≠ .err e) : (x.1.finish x.2).result ≠ some (.err e) := by simpa using hne
    refine ⟨fun h => absurd h (hresult hencoding), fun h => ?_, fun p h => absurd h (hresult (hparse p))⟩
    obtain rfl | rfl := hr
    · exact h
    · exact absurd (Option.some.inj h) hencoding

/-! ### Session state -/

/-- Settles O34: of the effects of an operation, RESET and a HEIGHT that was sent set CUR_HEIGHT. -/
theorem heightChangesOnlyOnSuccess : Obligations.HeightChangesOnlyOnSuccess := by
  intro s t i hexec
  cases exec_effect hexec with
  | reset hi _ => exact .inr (.inl ⟨_, _, hi, rfl⟩)
  | frontEnd _ => exact .inl rfl
  | @block x _ _ _ _ _ _ hheight =>
    have hcur : (x.1.finish x.2).curHeight = x.1.curHeight := finish_curHeight _ _
    obtain hsame | ⟨hex, hok, hlo, hhi, hi⟩ := hheight
    · exact .inl (hcur.trans hsame)
    · refine .inr (.inr ⟨hex, ?_, ?_⟩)
      · rw [← hok]
        exact finish_result _ _
      · rw [← hcur] at hlo hhi hi
        exact ⟨hlo, hhi, hi⟩

/-- Settles O35: a request is only accepted with FATAL 0, and sets it only by a failed hand-over. -/
theorem fatalOnlyClearedByReset : Obligations.FatalOnlyClearedByReset := by
  intro s t i hexec
  cases exec_effect hexec with
  | reset hi _ => exact ⟨fun _ _ => ⟨_, _, hi⟩, fun _ h => Bool.noConfusion h⟩
  | frontEnd _ => exact ⟨fun h h' => Bool.noConfusion (h.symm.trans h'), fun h h' => Bool.noConfusion (h.symm.trans h')⟩
  | @block x _ _ _ ha hx _ _ =>
    refine ⟨fun h => Bool.noConfusion (h.symm.trans ha.1), fun _ h => ?_⟩
    have hfatal : x.1.fatal = true := (finish_fatal _ _).symm.trans h
    obtain ⟨before, frame, hlog⟩ := hx.fatal.2 hfatal
    refine ⟨?_, before, frame, (finish_txlog _ _).trans hlog⟩
    exact (finish_result _ _).trans (congrArg some (hx.fatal.1.mp hfatal))

/-- Settles O36: the block's operations only append to TXLOG. -/
theorem logOnlyGrows : Obligations.LogOnlyGrows := by
  intro s t i hexec
  cases exec_effect hexec with
  | reset hi _ => exact .inr ⟨rfl, _, _, hi⟩
  | frontEnd _ => exact .inl (List.prefix_refl _)
  | @block x _ _ _ _ hx _ _ => exact .inl ((finish_txlog x.1 x.2).symm ▸ hx.grows)

/-! ### The log -/

/-- Between two hand-overs there is a delay, and the earlier one was accepted (R163). -/
def Spaced (log : List Event) : Prop :=
  ∀ (i j : Nat) (f g : List Byte) (a b : SinkAnswer), i < j → log[i]? = some (.tx f a) → log[j]? = some (.tx g b) →
    a = .ok ∧ ∃ k, i < k ∧ k < j ∧ log[k]? = some .gap

/-- A hand-over and its delay before a log: the log goes on only after an accepted one. -/
theorem Spaced.cons {rest : List Event} (h : Spaced rest) {frame : List Byte} {answer : SinkAnswer}
    (hgoesOn : answer = .ok ∨ rest = []) : Spaced (.tx frame answer :: .gap :: rest) := by
  intro i j f g a b hij hi hj
  match i, j with
  | 0, 1 => simp at hj
  | 0, j + 2 =>
    have hmore : rest ≠ [] := by
      rintro rfl
      simp at hj
    have hanswer : answer = a := by
      simp at hi
      exact hi.2
    exact ⟨hanswer ▸ hgoesOn.resolve_right hmore, 1, by omega, by omega, rfl⟩
  | 1, _ => simp at hi
  | i + 2, j + 2 =>
    obtain ⟨hok, k, hik, hkj, hk⟩ := h i j f g a b (by omega) hi hj
    exact ⟨hok, k + 2, by omega, by omega, hk⟩
  | i + 2, 1 => omega
  | i + 2, 0 => omega

theorem spaced_nil : Spaced [] := by simp [Spaced]

theorem LogOk.spaced {log : List Event} {fatal : Bool} (h : LogOk log fatal) : Spaced log := by
  induction log, fatal using LogOk.induct with
  | case1 => exact spaced_nil
  | case2 fatal frame rest ih => exact (ih h.2).cons (.inl rfl)
  | case3 => exact spaced_nil.cons (.inr rfl)
  | case4 => simp [LogOk] at h

/-- Settles O37, by the recursion of `LogOk`, which takes off a hand-over and its delay at a time. -/
theorem logSpacesHandOvers : Obligations.LogSpacesHandOvers :=
  fun _ _ i j f g a b hlog => hlog.spaced i j f g a b

/-! ### RESET -/

/-- Settles O40: the state after RESET, its refusal, and FATAL's stickiness (O35). -/
theorem resetStartsSession : Obligations.ResetStartsSession := by
  refine ⟨fun s h d hlo hhi => ?_, fun s h d hout => ?_, fun s t i hf hexec ht => ?_⟩
  · refine ⟨s.afterReset h d, (exec_reset_next_iff h d s _).mpr ⟨⟨hlo, hhi⟩, rfl⟩, ?_⟩
    exact ⟨rfl, rfl, rfl, rfl, rfl, rfl, rfl, rfl, rfl, rfl, rfl, rfl, rfl, rfl⟩
  · simp [exec, execReset, isHeight_eq_false hout]
  · exact (fatalOnlyClearedByReset s t i hexec).1 hf ht

/-- Settles O41: the fields of the state after RESET. -/
theorem resetLeavesInputsAlone : Obligations.ResetLeavesInputsAlone := by
  intro s t h d hexec
  obtain ⟨-, rfl⟩ := (exec_reset_next_iff h d s t).mp hexec
  exact ⟨rfl, rfl, rfl, rfl, rfl, rfl, rfl⟩

/-! ### Frames -/

/-- Settles O52: what the operation behind a request keeps, and RESULT and PHASE at its end. -/
theorem requestFrame : Obligations.RequestFrame := by
  intro s t i hi hexec
  obtain ⟨ha, rfl⟩ := exec_request hi hexec
  have hx := opSpec_of_request hi ha.1
  simp only [finish_cfgDefaultHeight, finish_cfgDelay, finish_maxLen, finish_relay, finish_relayKind, finish_relayR,
    finish_requests, finish_phase, finish_curHeight, finish_seqIdx, finish_fatal, finish_txlog, finish_sinkInputs,
    finish_sinkDraws]
  refine ⟨hx.cfgDefaultHeight, hx.cfgDelay, hx.maxLen, hx.relay, hx.relayKind, hx.relayR, hx.requests, trivial,
    opOf_keeps_curHeight ha.1, opOf_keeps_seqIdx, ?_, ?_⟩
  · rintro cmd rfl
    exact encodeOp_keeps_session cmd s
  · rintro bs rfl
    have hfinish := finish_enter ha.2 s.phase (.ok (.byte (checksum bs)))
    exact hfinish

/-- Settles O53: what an operation of the block keeps, under the relay's bookkeeping; an outcome that is a `ParseError`
is the front end's. -/
theorem frontEndFrame : Obligations.FrontEndFrame := by
  intro s t i hi hexec
  obtain hmsg | ⟨msg, rfl⟩ := hi
  · obtain ⟨-, k, ⟨e, he, hne, rfl⟩ | ⟨rfl, rfl⟩ | ⟨hne, x, ha, hx, hseq, rfl, hheight⟩⟩ := exec_message hmsg hexec
    · exact ⟨rfl, rfl, rfl, rfl, rfl, fun _ => rfl, fun _ => rfl⟩
    · exact ⟨rfl, rfl, rfl, rfl, rfl, fun _ => rfl, fun _ => rfl⟩
    · simp only [relayDone_cfgDefaultHeight, relayDone_cfgDelay, relayDone_maxLen, relayDone_requests, relayDone_seqIdx,
        relayDone_curHeight, relayDone_relayR, finish_cfgDefaultHeight, finish_cfgDelay, finish_maxLen, finish_requests,
        finish_seqIdx, finish_curHeight]
      refine ⟨hx.cfgDefaultHeight, hx.cfgDelay, hx.maxLen, hx.requests, hseq, fun hn => ?_, ?_⟩
      · obtain hsame | ⟨_, msg, _, _, _, hi, _⟩ := hheight
        · exact hsame
        · exact absurd hi (hn msg)
      · rintro (hexit | ⟨msg, rfl⟩ | ⟨-, p, hp⟩)
        · exact absurd hexit hne
        · cases hmsg
        · exact absurd (Option.some.inj hp) (hx.kinds.2 p)
  · cases hexec
    exact ⟨rfl, rfl, rfl, rfl, rfl, fun _ => rfl, fun _ => rfl⟩

end Sys2Proof.Machine
end

section
/-!
The messages (44_command_relay.md R180 to R189): one rule per message for an error of its fields and for the request it
makes, then obligations O43 to O50.
-/
namespace Sys2Proof.Machine

/-! ### One turn of the loop -/

theorem exec_motionMessage_error {s : State} (hr : s.relay = .running) {msg : Text} {e : Err}
    (h : motionOperands msg = .error e) : exec (.motionMessage msg) s = .next (Relayed s .motion (.err e)) := by
  simp [exec, execMotionMessage, whileRunning, hr, h, relayDone_eq]

theorem exec_motionMessage_request {s : State} (hr : s.relay = .running) {msg : Text} {fwd strafe turn : Int}
    (h : motionOperands msg = .ok (fwd, strafe, turn)) :
    exec (.motionMessage msg) s = relayDispatch .motion (request (moveMotionOp fwd strafe turn) s) := by
  simp [exec, execMotionMessage, whileRunning, hr, h]

theorem exec_heightMessage_error {s : State} (hr : s.relay = .running) {msg : Text} {e : Err}
    (h : heightOperand msg = .error e) : exec (.heightMessage msg) s = .next (Relayed s .height (.err e)) := by
  simp [exec, execHeightMessage, whileRunning, hr, h, relayDone_eq]

theorem exec_heightMessage_request {s : State} (hr : s.relay = .running) {msg : Text} {height : Int}
    (h : heightOperand msg = .ok height) :
    exec (.heightMessage msg) s = relayDispatch .height (request (setHeightOp height) s) := by
  simp [exec, execHeightMessage, whileRunning, hr, h]

theorem exec_rawMessage_error {s : State} (hr : s.relay = .running) {msg : Text} {e : Err}
    (h : rawOperands msg = .error e) : exec (.rawMessage msg) s = .next (Relayed s .raw (.err e)) := by
  simp [exec, execRawMessage, whileRunning, hr, h, relayDone_eq]

theorem exec_rawMessage_request {s : State} (hr : s.relay = .running) {msg d : Text} {ints : Command}
    (h : rawOperands msg = .ok (d, ints)) :
    exec (.rawMessage msg) s = relayDispatch .raw (requestCommand ints (sendRawOp d ints) s) := by
  simp [exec, execRawMessage, whileRunning, hr, h]

theorem exec_fallback_request {s : State} (hr : s.relay = .running) :
    exec .fallback s = relayDispatch .fallback (fallbackRequests s) := if_pos hr

/-- The relay takes the finished state and the result of an accepted request. -/
theorem relayDispatch_accepting {s t : State} {r : OpResult} (ha : Accepting s) {op : State → State × OpResult}
    (k : MsgKind) (hstate : (op s).1.finish (op s).2 = t) (hresult : (op s).2 = r) :
    relayDispatch k (request op s) = .next (Relayed t k r) := by
  rw [relayDispatch_request ha, relayDone_eq, hstate, hresult]

/-- Settles O43: EXIT writes the relay's three fields. -/
theorem exitEndsRelayOnly : Obligations.ExitEndsRelayOnly :=
  fun s hr => (whileRunning_eq_next_iff s _ _).mpr ⟨hr, rfl⟩

/-! ### MOTION message (R183) -/

theorem moveMotionOp_valid {fwd strafe turn : Int} (hf : -128 ≤ fwd ∧ fwd ≤ 127) (hs : -128 ≤ strafe ∧ strafe ≤ 127)
    (ht : -128 ≤ turn ∧ turn ≤ 127) (s : State) :
    moveMotionOp fwd strafe turn s =
      ({ Sent s [6, fwd, strafe, turn] with phase := .delay }, sentResult s [6, fwd, strafe, turn]) := by
  rw [moveMotionOp, buildMotion_ok hf hs ht, executeBuilt_valid (valid_motion hf hs ht)]

/-- Settles O44: the operands of the message, and the hand-over of their Command. -/
theorem motionMessageSends : Obligations.MotionMessageSends := by
  intro s msg f0 f1 f2 f3 f4 fwd strafe turn hr ha hsplit h1 h2 h3 h4 hf1 hf2 hs1 hs2 ht1 ht2
  have hop := moveMotionOp_valid ⟨hf1, hf2⟩ ⟨hs1, hs2⟩ ⟨ht1, ht2⟩ s
  rw [exec_motionMessage_request hr (motionOperands_ok hsplit h1 h2 h3 h4)]
  exact relayDispatch_accepting ha .motion (by rw [hop, finish_sent]) (by rw [hop])

theorem motionOperands_wrong_count {msg : Text} (h : (splitCommas msg).length ≠ 5) :
    motionOperands msg = .error (.parse (.exactly 5)) := by
  unfold motionOperands
  split
  · next hsplit => simp [hsplit] at h
  · rfl

theorem motionOperands_fields_error {msg f0 f1 f2 f3 f4 : Text} {e : Err}
    (hsplit : splitCommas msg = [f0, f1, f2, f3, f4]) (h : parseFields 1 [f1, f2, f3, f4] = .error e) :
    motionOperands msg = .error e := by
  simp [motionOperands, hsplit, h]

theorem motionOperands_wrong_opcode {msg f0 f1 f2 f3 f4 : Text} {op a b c : Int}
    (hsplit : splitCommas msg = [f0, f1, f2, f3, f4]) (h1 : parseInt f1 = some op) (h2 : parseInt f2 = some a)
    (h3 : parseInt f3 = some b) (h4 : parseInt f4 = some c) (hop : op ≠ 6) :
    motionOperands msg = .error (.range .opcode op .opcodeSix) := by
  have hfields : parseFields 1 [f1, f2, f3, f4] = .ok [op, a, b, c] := parseFields_ok (by simp [*])
  simp [motionOperands, hsplit, hfields, Config.opMotion, hop]

/-- The first field of a message, after its class, that is no integer (R185, R214). -/
theorem parseFields_first_bad {f0 : Text} {fs : List Text} {i : Nat} {t : Text} (hi : 1 ≤ i)
    (hbad : (f0 :: fs)[i]? = some t) (hparse : parseInt t = none)
    (hbefore : ∀ j u, 1 ≤ j → j < i → (f0 :: fs)[j]? = some u → parseInt u ≠ none) :
    parseFields 1 fs = .error (.parse (.notInteger i)) := by
  obtain ⟨k, rfl⟩ : ∃ k, i = 1 + k := ⟨i - 1, by omega⟩
  have hk : fs[k]? = some t := by simpa [Nat.add_comm 1 k] using hbad
  exact parseFields_bad hk hparse fun j u hj hu => hbefore (j + 1) u (by omega) (by omega) hu

/-- Settles O45: the three errors of the message's fields, none of which reaches the block. -/
theorem motionMessageErrors : Obligations.MotionMessageErrors := by
  intro s msg hr
  refine ⟨fun hlen => exec_motionMessage_error hr (motionOperands_wrong_count hlen), ?_, ?_⟩
  · intro i t hlen hi hbad hparse hbefore
    match hsplit : splitCommas msg, hlen with
    | [f0, f1, f2, f3, f4], _ =>
      rw [hsplit] at hbad hbefore
      exact exec_motionMessage_error hr
        (motionOperands_fields_error hsplit (parseFields_first_bad hi hbad hparse hbefore))
  · intro f0 f1 f2 f3 f4 op a b c hsplit h1 h2 h3 h4 hop
    exact exec_motionMessage_error hr (motionOperands_wrong_opcode hsplit h1 h2 h3 h4 hop)

/-! ### HEIGHT message (R184) -/

theorem heightOperand_wrong_count {msg : Text} (h : (splitCommas msg).length ≠ 2) :
    heightOperand msg = .error (.parse (.exactly 2)) := by
  unfold heightOperand
  split
  · next hsplit => simp [hsplit] at h
  · rfl

theorem heightOperand_bad {msg f0 f1 : Text} (hsplit : splitCommas msg = [f0, f1]) (h : parseInt f1 = none) :
    heightOperand msg = .error (.parse (.notInteger 1)) := by
  simp [heightOperand, hsplit, parseField_none h]

/-- Settles O46: the operand of the message and its hand-over, or the error of its fields. -/
theorem heightMessageSends : Obligations.HeightMessageSends := by
  intro s msg hr
  refine ⟨fun f0 f1 h ha hsplit hparse hlo hhi => ?_,
    fun hlen => exec_heightMessage_error hr (heightOperand_wrong_count hlen),
    fun f0 f1 hsplit hparse => exec_heightMessage_error hr (heightOperand_bad hsplit hparse)⟩
  rw [exec_heightMessage_request hr (heightOperand_ok hsplit hparse)]
  exact relayDispatch_accepting ha .height (finish_setHeightOp_valid ⟨hlo, hhi⟩) (by rw [setHeightOp_valid ⟨hlo, hhi⟩])

/-! ### RAW message (R185) -/

theorem rawOperands_too_few {msg : Text} (h : (splitCommas msg).length < 2) :
    rawOperands msg = .error (.parse (.atLeast 2)) := by
  unfold rawOperands
  split
  · next hsplit =>
    rw [hsplit, List.length_cons, List.length_cons] at h
    omega
  · rfl

theorem rawOperands_fields_error {msg f0 : Text} {fs : List Text} {e : Err} (hsplit : splitCommas msg = f0 :: fs)
    (h : parseFields 1 fs = .error e) : rawOperands msg = .error e := by
  cases fs with
  | nil => cases h
  | cons f fs => simp [rawOperands, hsplit, h]

/-- An accepted RAW message is answered with EXECUTE's finished state and result. -/
theorem exec_rawMessage_accepting {s : State} (hr : s.relay = .running) (ha : Accepting s) {msg f0 : Text}
    {fs : List Text} {ints : Command} (hsplit : splitCommas msg = f0 :: fs) (hne : fs ≠ [])
    (hparse : fs.map parseInt = ints.map some) (hf : s.fits ints = true) :
    exec (.rawMessage msg) s = .next (Relayed ((executeOp ints f0 s).1.finish (executeOp ints f0 s).2) .raw
      (executeOp ints f0 s).2) := by
  obtain ⟨hstate, hresult⟩ := finish_sendRawOp s f0 ints
  rw [exec_rawMessage_request hr (rawOperands_ok hsplit hne hparse), requestCommand, if_pos hf]
  exact relayDispatch_accepting ha .raw hstate hresult

/-- Settles O47: the integers of the message and their hand-over, or the error of its fields. -/
theorem rawMessageSends : Obligations.RawMessageSends := by
  intro s msg hr
  refine ⟨fun f0 fs ints ha hf hsplit hne hparse hv => ?_,
    fun hlen => exec_rawMessage_error hr (rawOperands_too_few hlen), fun i t hi hbad hparse hbefore => ?_⟩
  · rw [exec_rawMessage_accepting hr ha hsplit hne hparse hf, finish_executeOp_valid hv, executeOp_valid hv]
  · obtain ⟨f0, fs, hsplit⟩ := List.exists_cons_of_ne_nil (splitCommas_ne_nil msg)
    rw [hsplit] at hbad hbefore
    exact exec_rawMessage_error hr (rawOperands_fields_error hsplit (parseFields_first_bad hi hbad hparse hbefore))

/-! ### Operands out of range -/

theorem relayDispatch_moveMotion_rejected {s : State} (ha : Accepting s) {fwd strafe turn : Int} {e : Err}
    (h : buildMotion fwd strafe turn = .error e) :
    relayDispatch .motion (request (moveMotionOp fwd strafe turn) s) =
      .next (Relayed (Rejected s e) .motion (.err e)) := by
  have hop := moveMotionOp_error h s
  exact relayDispatch_accepting ha .motion (by rw [hop, finish_dropBuffers ha.2]) (by rw [hop])

/-- RANGE's answer to a Command whose first element out of range is known (R112, D9). -/
theorem codec_error_of_lowest_failing {cmd : Command} {i : Nat} {v : Int} (hi : cmd[i]? = some v)
    (hout : v < -128 ∨ 127 < v) (hbefore : Valid (cmd.take i)) :
    codec cmd = .error (.range (.element i) v .signedByte) := by
  have hn : ¬ Valid cmd := fun hv => by
    have := hv v (List.mem_of_getElem? hi)
    omega
  obtain ⟨j, w, herr, hj, hwout, hbefore'⟩ := codecWith_lowest_failing Config.cobsTrailingPolicy hn
  have hnotBefore {k l : Nat} {x : Int} (hx : cmd[k]? = some x) (hxout : x < -128 ∨ 127 < x)
      (hvalid : Valid (cmd.take l)) : ¬ k < l := fun hkl => by
    have := hvalid x (List.mem_of_getElem? ((List.getElem?_take_of_lt hkl).trans hx))
    omega
  obtain rfl : i = j := by
    have h1 := hnotBefore hi hout hbefore'
    have h2 := hnotBefore hj hwout hbefore
    omega
  obtain rfl : v = w := Option.some.inj (hi.symm.trans hj)
  exact herr

/-- Settles O48: the serializer's or the codec's error for the first value out of range, taken by the relay. -/
theorem messageOutOfRangeRejected : Obligations.MessageOutOfRangeRejected := by
  intro s msg hr ha
  refine ⟨?_, ?_, ?_⟩
  · intro f0 f1 f2 f3 f4 fwd strafe turn hsplit h1 h2 h3 h4
    rw [exec_motionMessage_request hr (motionOperands_ok hsplit h1 h2 h3 h4)]
    exact ⟨fun hf => relayDispatch_moveMotion_rejected ha (buildMotion_bad_fwd hf _ _),
      fun hf1 hf2 hs => relayDispatch_moveMotion_rejected ha (buildMotion_bad_strafe ⟨hf1, hf2⟩ hs _),
      fun hf1 hf2 hs1 hs2 ht =>
        relayDispatch_moveMotion_rejected ha (buildMotion_bad_turn ⟨hf1, hf2⟩ ⟨hs1, hs2⟩ ht)⟩
  · intro f0 f1 h hsplit hparse hout
    have hop := setHeightOp_error hout s
    rw [exec_heightMessage_request hr (heightOperand_ok hsplit hparse)]
    exact relayDispatch_accepting ha .height (by rw [hop, finish_dropBuffers ha.2]) (by rw [hop])
  · intro f0 fs ints i v hsplit hparse hf hi hout hbefore
    have hne : fs ≠ [] := by
      rintro rfl
      obtain rfl : ints = [] := by simpa using hparse.symm
      simp at hi
    have herr := codec_error_of_lowest_failing hi hout hbefore
    rw [exec_rawMessage_accepting hr ha hsplit hne hparse hf, finish_executeOp_error ha.2 herr,
      executeOp_of_codec_error herr]

/-! ### FALLBACK (R186) -/

/-- An accepted request of a built, valid Command. -/
theorem request_executeBuilt_valid {s : State} (ha : Accepting s) {cmd : Command} (hv : Valid cmd) (d : Text) :
    request (executeBuilt (.ok cmd) d) s =
      .next ({ Sent s cmd with result := some (sentResult s cmd) }, sentResult s cmd) := by
  rw [request_accepting ha, executeBuilt_valid hv, finish_sent]

/-- After an accepted hand-over the block accepts the next request. -/
theorem accepting_sent {s : State} (ha : Accepting s) (hok : s.sinkAnswer = .ok) (cmd : Command) (r : Option OpResult) :
    Accepting { Sent s cmd with result := r } :=
  ⟨by simp [Sent, ha.1, hok], rfl⟩

theorem fallbackRequests_turn_accepted {s : State} (ha : Accepting s) (hok : s.sinkAnswer = .ok) :
    fallbackRequests s = .next ({ Sent (Sent s [6, 0, 0, 80]) [6, 0, 0, 0] with
      result := some (sentResult (Sent s [6, 0, 0, 80]) [6, 0, 0, 0]) },
      sentResult (Sent s [6, 0, 0, 80]) [6, 0, 0, 0]) := by
  have hturn : request turnOp s = _ := request_executeBuilt_valid ha valid_turn _
  have hisOk : (sentResult s buildTurn).isOk = true := by simp [sentResult_isOk, hok]
  simp only [fallbackRequests, hturn, hisOk, if_true]
  exact request_executeBuilt_valid (accepting_sent ha hok _ _) valid_stop _

theorem fallbackRequests_turn_failed {s : State} (ha : Accepting s) (hfail : s.sinkAnswer = .fail) :
    fallbackRequests s =
      .next ({ Sent s [6, 0, 0, 80] with result := some (.err .transport) }, .err .transport) := by
  have hturn : request turnOp s = _ := request_executeBuilt_valid ha valid_turn _
  have hresult : sentResult s buildTurn = .err .transport := by simp [sentResult, hfail]
  simp only [fallbackRequests, hturn, hresult, OpResult.isOk]
  rfl

/-- Settles O49: the two requests of FALLBACK, or the first of them, taken by the relay. -/
theorem fallbackTurnsThenStops : Obligations.FallbackTurnsThenStops := by
  intro s hr ha
  rw [exec_fallback_request hr]
  refine ⟨fun hok => ?_, fun hfail => ?_⟩
  · rw [fallbackRequests_turn_accepted ha hok, relayDispatch, relayDone_eq]
  · rw [fallbackRequests_turn_failed ha hfail, relayDispatch, relayDone_eq]

/-! ### The end of the loop (R188) -/

/-- A message that is not EXIT ends the loop exactly when its outcome is `TransportError`. -/
theorem relayDone_terminated_iff {s : State} (hr : s.relay = .running) (k : MsgKind) (r : OpResult) :
    (s.relayDone k r).relay = .terminated ↔ r = .err .transport := by
  rw [relayDone_relay, hr]
  by_cases h : r = .err .transport <;> simp [OpResult.endsSession, h]

theorem exec_message_terminated {s : State} {i : Instr} (hi : i.isMessage = true) (hr : s.relay = .terminated) :
    exec i s = .refused .relayTerminated := by
  have hended (o : Host.Outcome State Fault Refusal) : whileRunning s o = .refused .relayTerminated :=
    if_neg (by simp [hr])
  cases i with
  | exit | motionMessage | heightMessage | rawMessage | fallback => exact hended _
  | _ => simp [Instr.isMessage] at hi

/-- Settles O50, by the three things a message can do. -/
theorem relayRunsOnAfterErrors : Obligations.RelayRunsOnAfterErrors := by
  refine ⟨fun s t i hi hexec => ?_, fun s i hi hr => exec_message_terminated hi hr⟩
  obtain ⟨hr, k, hcase⟩ := exec_message hi hexec
  refine ⟨hr, ?_⟩
  obtain ⟨e, he, hne, rfl⟩ | ⟨rfl, rfl⟩ | ⟨hne, x, ha, hx, -, rfl, -⟩ := hcase
  · exact ⟨_, rfl, by simp only [relayDone_terminated_iff hr, hne, false_or]⟩
  · exact ⟨_, rfl, by simp⟩
  · have hrunning : (x.1.finish x.2).relay = .running := (finish_relay _ _).trans (hx.relay.trans hr)
    exact ⟨_, rfl, by simp only [relayDone_terminated_iff hrunning, hne, false_or]⟩

end Sys2Proof.Machine
end

section
/-!
Refusals (R213): obligations O30 and O31.
-/
namespace Sys2Proof.Machine

/-- The refusals of a request to a block that is not accepting (R213 a to c). -/
def IsBlockRefusal (r : Refusal) : Prop := r = .sessionFatal ∨ r = .busy ∨ r = .commandTooLong

theorem request_not_accepting {s : State} (hn : s.fatal = true ∨ s.phase ≠ .idle) (op : State → State × OpResult) :
    ∃ r, request op s = .refused r ∧ IsBlockRefusal r := by
  unfold request
  split
  · exact ⟨_, rfl, .inl rfl⟩
  · next hf => exact ⟨_, if_pos (hn.resolve_left hf), .inr (.inl rfl)⟩

theorem requestCommand_not_accepting {s : State} (hn : s.fatal = true ∨ s.phase ≠ .idle) (cmd : Command)
    (op : State → State × OpResult) : ∃ r, requestCommand cmd op s = .refused r ∧ IsBlockRefusal r := by
  unfold requestCommand
  split
  · exact request_not_accepting hn op
  · exact ⟨_, rfl, .inr (.inr rfl)⟩

theorem answered_block_refusal {o : Host.Outcome (State × OpResult) Fault Refusal}
    (h : ∃ r, o = .refused r ∧ IsBlockRefusal r) : ∃ r, answered o = .refused r ∧ IsBlockRefusal r := by
  obtain ⟨r, ho, hr⟩ := h
  exact ⟨r, (answered_refused_iff o r).mpr ho, hr⟩

theorem relayDispatch_block_refusal {o : Host.Outcome (State × OpResult) Fault Refusal} (k : MsgKind)
    (h : ∃ r, o = .refused r ∧ IsBlockRefusal r) : ∃ r, relayDispatch k o = .refused r ∧ IsBlockRefusal r := by
  obtain ⟨r, ho, hr⟩ := h
  exact ⟨r, relayDispatch_refused ho, hr⟩

/-- Every request to a block that is not accepting is refused. -/
theorem exec_request_not_accepting {s : State} {i : Instr} (hi : i.isRequest = true)
    (hn : s.fatal = true ∨ s.phase ≠ .idle) : ∃ r, exec i s = .refused r ∧ IsBlockRefusal r := by
  cases i with
  | motion | height | stop | turn | init0 | init1 | init2 | init | checksum =>
    exact answered_block_refusal (request_not_accepting hn _)
  | raw | execute | encode => exact answered_block_refusal (requestCommand_not_accepting hn _ _)
  | _ => simp [Instr.isRequest] at hi

/-- So is every request a message makes. -/
theorem exec_message_not_accepting {s : State} {i : Instr} (hi : i.reachesBlock) (hr : s.relay = .running)
    (hn : s.fatal = true ∨ s.phase ≠ .idle) : ∃ r, exec i s = .refused r ∧ IsBlockRefusal r := by
  cases i with
  | motionMessage msg =>
    obtain ⟨f0, f1, f2, f3, f4, fwd, strafe, turn, hsplit, h1, h2, h3, h4⟩ := hi
    rw [exec_motionMessage_request hr (motionOperands_ok hsplit h1 h2 h3 h4)]
    exact relayDispatch_block_refusal _ (request_not_accepting hn _)
  | heightMessage msg =>
    obtain ⟨f0, f1, h, hsplit, hparse⟩ := hi
    rw [exec_heightMessage_request hr (heightOperand_ok hsplit hparse)]
    exact relayDispatch_block_refusal _ (request_not_accepting hn _)
  | rawMessage msg =>
    obtain ⟨f0, fs, ints, hsplit, hne, hparse⟩ := hi
    rw [exec_rawMessage_request hr (rawOperands_ok hsplit hne hparse)]
    exact relayDispatch_block_refusal _ (requestCommand_not_accepting hn _ _)
  | fallback =>
    obtain ⟨r, hturn, hblock⟩ := request_not_accepting hn turnOp
    rw [exec_fallback_request hr]
    exact relayDispatch_block_refusal _ ⟨r, by simp [fallbackRequests, hturn], hblock⟩
  | _ => exact absurd hi (by simp [Instr.reachesBlock])

/-- Settles O30: the block refuses a request, whoever makes it. -/
theorem notAcceptingRefusesRequests : Obligations.NotAcceptingRefusesRequests := by
  rintro s i (hi | ⟨hi, hr⟩) hn
  · exact exec_request_not_accepting hi hn
  · exact exec_message_not_accepting hi hr hn

theorem fits_eq_false {s : State} {cmd : Command} {m : Nat} (hm : s.maxLen = some m) (hlen : m < cmd.length) :
    s.fits cmd = false := by
  simpa [State.fits, hm] using hlen

/-- Settles O31: the length is looked at before the request, and a RAW message's Command is not empty here. -/
theorem tooLongCommandRefused : Obligations.TooLongCommandRefused := by
  intro s d cmd m hm hlen
  have hlong (op : State → State × OpResult) : requestCommand cmd op s = .refused .commandTooLong :=
    requestCommand_too_long (fits_eq_false hm hlen)
  refine ⟨?_, ?_, ?_, fun msg f0 fs hr hsplit hparse => ?_⟩
  · exact (answered_refused_iff _ _).mpr (hlong _)
  · exact (answered_refused_iff _ _).mpr (hlong _)
  · exact (answered_refused_iff _ _).mpr (hlong _)
  · have hne : fs ≠ [] := by
      rintro rfl
      obtain rfl : cmd = [] := by simpa using hparse.symm
      simp at hlen
    rw [exec_rawMessage_request hr (rawOperands_ok hsplit hne hparse)]
    exact relayDispatch_refused (hlong _)

end Sys2Proof.Machine
end

section
/-!
Texts (44_command_relay.md R181, R187): obligations O42 and O51.
-/
namespace Sys2Proof

/-! ### CLASSIFY (R181) -/

theorem classify_eq (msg : Text) :
    classify msg =
      if "exit".toList <:+: lowercase msg then .exit
      else if "motion".toList <:+: lowercase msg then .motion
      else if "height".toList <:+: lowercase msg then .height
      else if "raw".toList <:+: lowercase msg then .raw
      else .fallback := by
  have hexit : "exit".toList = kwExit := by decide
  have hmotion : "motion".toList = kwMotion := by decide
  have hheight : "height".toList = kwHeight := by decide
  have hraw : "raw".toList = kwRaw := by decide
  simp only [classify, contains_iff, hexit, hmotion, hheight, hraw]

/-- The 26 capitals are the characters from `A` to `Z`. -/
theorem mem_capitals {c : Char} (h : 'A' ≤ c ∧ c ≤ 'Z') : c ∈ "ABCDEFGHIJKLMNOPQRSTUVWXYZ".toList := by
  have hall : ∀ k < 26, Char.ofNat (65 + k) ∈ "ABCDEFGHIJKLMNOPQRSTUVWXYZ".toList := by decide +kernel
  have hlo : 65 ≤ c.toNat := h.1
  have hhi : c.toNat ≤ 90 := h.2
  have hmem := hall (c.toNat - 65) (by omega)
  rwa [Nat.add_sub_cancel' hlo, Char.ofNat_toNat] at hmem

/-- Settles O42: the class by substrings, and `lowercase` character by character. -/
theorem classifyTakesFirstKeyword : Obligations.ClassifyTakesFirstKeyword := by
  refine ⟨fun s msg => ⟨classify msg, rfl, classify_eq msg⟩, fun a b => List.map_append, by decide +kernel,
    fun c hc => ?_⟩
  exact congrArg (fun x => [x]) (Machine.lowerChar_of_not_capital fun h => hc (mem_capitals h))

/-! ### PARSE_INT (R187) -/

theorem isDigit_iff (c : Char) : isDigit c = true ↔ '0' ≤ c ∧ c ≤ '9' := decide_eq_true_iff

theorem isDigit_of_mem_toDigits {n : Nat} {c : Char} (h : c ∈ Nat.toDigits 10 n) : isDigit c = true := by
  have hlib := Nat.isDigit_of_mem_toDigits (by decide) (by decide) h
  exact (isDigit_iff c).mpr (Char.isDigit_iff_toNat.mp hlib)

theorem digitsValue_toDigits (n : Nat) : digitsValue (Nat.toDigits 10 n) = n := by
  have hlib := Nat.ofDigitChars_ten_toDigits (n := n)
  rwa [Nat.ofDigitChars_eq_foldl] at hlib

/-- A decimal numeral has no leading zero, but for the numeral of 0 itself. -/
theorem head_toDigits_ne_zero {n : Nat} (h : 0 < n) : (Nat.toDigits 10 n).head? ≠ some '0' := by
  induction n using Nat.strong_induction_on with
  | _ n ih =>
    by_cases hlt : n < 10
    · rw [Nat.toDigits_of_lt_base hlt]
      interval_cases n <;> decide
    · have hrec := ih (n / 10) (by omega) (by omega)
      rw [Nat.toDigits_of_base_le (by decide) (by omega), List.head?_append_of_ne_nil _ Nat.toDigits_ne_nil]
      exact hrec

theorem signAndDigits_cons (c : Char) (rest : Text) :
    signAndDigits (c :: rest) = if c = '-' then (true, rest) else (false, c :: rest) := rfl

/-- The text after an optional `-` decides what a text with digits parses to. -/
theorem parseInt_of_digits {t ds : Text} {neg : Bool} (hsign : signAndDigits t = (neg, ds)) (hne : ds ≠ [])
    (hdigits : ∀ c ∈ ds, isDigit c = true) (hzero : ds.length = 1 ∨ ds.head? ≠ some '0') :
    parseInt t = some (if neg then -(digitsValue ds : Int) else (digitsValue ds : Int)) := by
  have hnumeral : isNumeral t = true := by simpa [isNumeral, hsign, hne] using hdigits
  have hleading : hasLeadingZeros t = false := by
    unfold hasLeadingZeros
    rw [hsign]
    match ds, hzero with
    | [], _ => rfl
    | [_], _ => rfl
    | c :: _ :: _, hzero => simpa using hzero
  simp [parseInt, hnumeral, hleading, numeralValue, hsign]

theorem parseInt_signed_toDigits {t : Text} {neg : Bool} {n : Nat}
    (hsign : signAndDigits t = (neg, Nat.toDigits 10 n)) :
    parseInt t = some (if neg then -(n : Int) else (n : Int)) := by
  have hzero : (Nat.toDigits 10 n).length = 1 ∨ (Nat.toDigits 10 n).head? ≠ some '0' := by
    obtain rfl | hpos := Nat.eq_zero_or_pos n
    · exact .inl (by simp)
    · exact .inr (head_toDigits_ne_zero hpos)
  have hparse := parseInt_of_digits hsign Nat.toDigits_ne_nil (fun c => isDigit_of_mem_toDigits) hzero
  rwa [digitsValue_toDigits] at hparse

/-- A text that starts with a digit has no sign. -/
theorem signAndDigits_toDigits (n : Nat) : signAndDigits (Nat.toDigits 10 n) = (false, Nat.toDigits 10 n) := by
  cases h : Nat.toDigits 10 n with
  | nil => rfl
  | cons c rest =>
    have hdigit : isDigit c = true := isDigit_of_mem_toDigits (h ▸ List.mem_cons_self)
    have hminus : c ≠ '-' := by
      rintro rfl
      cases hdigit
    rw [signAndDigits_cons, if_neg hminus]

/-- A numeral has a digit. -/
theorem exists_digit_of_isNumeral {t : Text} (h : isNumeral t = true) : ∃ c ∈ t, isDigit c = true := by
  simp only [isNumeral, Bool.and_eq_true, Bool.not_eq_true', List.isEmpty_eq_false_iff, List.all_eq_true] at h
  obtain ⟨hne, hdigits⟩ := h
  obtain ⟨c, hc⟩ := List.exists_mem_of_ne_nil _ hne
  refine ⟨c, ?_, hdigits c hc⟩
  cases t with
  | nil => exact absurd hc (List.not_mem_nil)
  | cons d rest =>
    rw [signAndDigits_cons] at hc
    split at hc
    · exact List.mem_cons_of_mem _ hc
    · exact hc

theorem parseInt_no_digit {t : Text} (h : ∀ c ∈ t, ¬ ('0' ≤ c ∧ c ≤ '9')) : parseInt t = none := by
  have hnone : ∀ c ∈ t, isDigit c = false := fun c hc => decide_eq_false (h c hc)
  have hnumeral : isNumeral t = false := by
    rw [← Bool.not_eq_true]
    intro hnum
    obtain ⟨c, hc, hdigit⟩ := exists_digit_of_isNumeral hnum
    exact Bool.noConfusion ((hnone c hc).symm.trans hdigit)
  have hany : t.any isDigit = false := List.any_eq_false.mpr fun c hc => by simp [hnone c hc]
  simp [parseInt, hnumeral, hany]

/-! ### `split` (R187) -/

/-- `split` gives the library's pieces between the commas. -/
theorem splitCommas_eq_splitOn (t : Text) : splitCommas t = t.splitOn ',' := by
  induction t with
  | nil => rfl
  | cons c t ih =>
    obtain ⟨f, fs, hfs⟩ := List.exists_cons_of_ne_nil (splitCommas_ne_nil t)
    rw [List.splitOn_cons_eq_if_modifyHead, ← ih, splitCommas]
    by_cases hc : c = ',' <;> simp [hc, hfs]

/-- Settles O51: decimal numerals and their value by the library's `Nat.toDigits`, and `split` as its `List.splitOn`. -/
theorem parsingPrimitives : Obligations.ParsingPrimitives := by
  refine ⟨fun n => ⟨parseInt_signed_toDigits (signAndDigits_toDigits n), parseInt_signed_toDigits (neg := true) rfl⟩,
    fun t => parseInt_no_digit, fun t => ?_⟩
  rw [splitCommas_eq_splitOn]
  exact ⟨length_splitOn ',' t, List.intercalate_splitOn ',', not_mem_of_mem_splitOn ',' t⟩

end Sys2Proof
end

section
/-!
Steps and the host's reads (R35, R54, R213, R223, R236): obligations O54, O55 and O59.
-/
namespace Sys2Proof.Machine

/-- A step takes the first request and executes what it decodes to; a failed RECEIVE decodes to nothing. -/
theorem step_of_decode {s : State} {r : Request} {rest : List Request} {i : Instr} (h : decode r = .ok i) :
    step { s with requests := r :: rest } = exec i { s with requests := rest } := by
  cases r with
  | receiveFails => cases h
  | direct | word | text => simp only [step, h]

/-- Settles O54: a request that decodes is not a failed RECEIVE, so `step` takes its decoding branch. -/
theorem stepRunsDecodedRequest : Obligations.StepRunsDecodedRequest :=
  fun _ _ _ _ => step_of_decode

theorem decode_direct_ill_formed {i : Instr} (h : i.wf = false) : decode (.direct i) = .error .notOfItsKind := by
  simp [decode, h]

/-- Settles O55: the branches of `step` that execute nothing. -/
theorem stepWithoutOperation : Obligations.StepWithoutOperation := by
  refine ⟨fun s h => ?_, fun s rest hr => ?_, fun s i rest hwf => ?_⟩
  · simp [step, h]
  · exact (whileRunning_eq_next_iff _ _ _).mpr ⟨hr, rfl⟩
  · simp only [step, decode_direct_ill_formed hwf]

/-! ### Reads -/

theorem memRead_of_space {s : State} {sp : Space} {es : List Elem} (h : s.space sp = .ok es) (idx n : Nat) :
    s.memRead sp idx n =
      if n = 0 ∨ idx + n ≤ es.length then .ok ((es.drop idx).take n)
      else .error (.outOfRange sp (max idx es.length)) := by
  simp [State.memRead, h]

theorem memRead_refused {s : State} {sp : Space} {r : Refusal} (h : s.space sp = .error r) (idx n : Nat) :
    s.memRead sp idx n = .error r := by
  simp [State.memRead, h]

/-- A range inside a space, a range of no element, and a range that leaves the space (R54). -/
theorem memRead_cases {s : State} {sp : Space} {es : List Elem} (h : s.space sp = .ok es) (idx n : Nat) :
    (idx + n ≤ es.length → s.memRead sp idx n = .ok ((es.drop idx).take n)) ∧
    (n = 0 → s.memRead sp idx n = .ok []) ∧
    (0 < n → es.length < idx + n → ∃ k, idx ≤ k ∧ k < idx + n ∧ es.length ≤ k ∧
      (∀ j, idx ≤ j → j < k → j < es.length) ∧ s.memRead sp idx n = .error (.outOfRange sp k)) := by
  rw [memRead_of_space h]
  refine ⟨fun hin => if_pos (.inr hin), fun hzero => ?_, fun hpos hout => ?_⟩
  · rw [if_pos (.inl hzero), hzero, List.take_zero]
  · exact ⟨max idx es.length, by omega, by omega, by omega, fun j _ _ => by omega, if_neg (by omega)⟩

/-- Settles O59: what each space holds or lacks, and the reads of a range of it. -/
theorem hostReadsRefuseWithoutValue : Obligations.HostReadsRefuseWithoutValue := by
  intro s
  refine ⟨fun c h => ?_, fun bs h => ?_, fun bs h => ?_, fun bs h => ?_, fun cs h => ?_, rfl, rfl,
    fun sp es idx n h => memRead_cases h idx n, fun idx n => ⟨fun h => ⟨memRead_refused ?_ idx n, ?_⟩,
      fun h => memRead_refused ?_ idx n, fun h => memRead_refused ?_ idx n, fun h => memRead_refused ?_ idx n,
      fun h => memRead_refused ?_ idx n⟩, fun h => ?_, fun r h => ?_, rfl⟩
  all_goals simp [State.space, State.readLen, State.len, State.readResult, h]

end Sys2Proof.Machine
end
